-- ==== Sys2Proof/Word.lean ====
section
/-! DEFINITION. The one word type of the WCB: a byte of the bus (R9 `u8`, R37).
Every other quantity of the spec is an integer, a count or a name and is typed as such (R9, R13). -/

namespace Sys2Proof

/-- A byte, 8 bits (R37): an opcode, a payload, a PWM duty value, a byte of the register buffer. -/
abbrev Byte := BitVec 8

end Sys2Proof
end

