-- ==== Sys2Proof/Config.lean ====
section
/-! DEFINITION. What is fixed for the machine (the configuration record `cfg`, R6, R7, R29), the wheels it serves,
the input ports through which the environment acts (R30), and the order in which agents act, which the spec leaves open
(R114): an OPAQUE constant. The parameters R6 names without a value are one too, in Machine/Configuration.lean. -/

namespace Sys2Proof

/-- A wheel index `w`: 0 = Left, 1 = Right (R5, R9; the spec's decision D2). -/
inductive Wheel where
  | left
  | right
  deriving DecidableEq, Repr, Inhabited

/-- "Per-wheel state exists twice" (R13): one value for each wheel. -/
structure PerWheel (α : Type) where
  left : α
  right : α
  deriving DecidableEq, Repr, Inhabited

/-- `x[w]`. -/
def PerWheel.get {α : Type} (x : PerWheel α) : Wheel → α
  | .left => x.left
  | .right => x.right

/-- `x` with `x[w]` replaced by `v`. -/
def PerWheel.set {α : Type} (x : PerWheel α) (w : Wheel) (v : α) : PerWheel α :=
  match w with
  | .left => { x with left := v }
  | .right => { x with right := v }

/-- `topology[w]`, the output wiring of a wheel, "selected at construction" (R6, R86). -/
inductive Topology where
  | singlePinPWM
  | dualPhasePWM
  deriving DecidableEq, Repr, Inhabited

/-- The nine host commands by name, in the source's listing order (R50). -/
inductive Mnemonic where
  | stopBoth
  | stopLeft
  | stopRight
  | fwdBoth
  | fwdLeft
  | fwdRight
  | revBoth
  | revLeft
  | revRight
  deriving DecidableEq, Repr, Inhabited

/-- `CMD_CODE`: the byte value of each of the nine commands (R7, R50; OPEN parameter, D1). -/
structure CmdCode where
  stopBoth : Byte
  stopLeft : Byte
  stopRight : Byte
  fwdBoth : Byte
  fwdLeft : Byte
  fwdRight : Byte
  revBoth : Byte
  revLeft : Byte
  revRight : Byte
  deriving DecidableEq, Repr

/-- `DIR_CODE`: the byte values of the direction field of the register buffer (R7, R24; OPEN parameter, D6). -/
structure DirCode where
  stopped : Byte
  forward : Byte
  reverse : Byte
  deriving DecidableEq, Repr

/-- The parameters R6 names without a value: "A model must not invent one" (R6, N5). -/
structure Parameters where
  /-- `maxForward`, upper clamp of a requested speed, 0..255 -/
  maxForward : Nat
  /-- `maxReverse`, magnitude of the lower clamp, 0..255 -/
  maxReverse : Nat
  /-- `initTable[0..maxSpeed]` -/
  initTable : List Byte
  /-- `calibrationOffset[w]`, −255..+255 -/
  calibrationOffset : PerWheel Int
  /-- `targetTable[0..maxSpeed]`, `uTW` microseconds -/
  targetTable : List Nat
  /-- `adjustDelay`, milliseconds -/
  adjustDelay : Nat
  /-- `settleDelay`, milliseconds -/
  settleDelay : Nat
  /-- `topology[w]`, "selected at construction" (R141, R142) -/
  topology : PerWheel Topology
  deriving DecidableEq, Repr

/-- The configuration record `cfg` of R29: the parameters of R6 and R7, "Immutable configuration".
Quantities the spec calls integers are `Nat` or `Int`; a table is the list of its entries, index 0 first.
`TW`, `MW` and `SW` are parameters, so a `uTW` or `uMW` value is a `Nat` kept below `2^TW` or `2^MW`. -/
structure Cfg where
  /-- `maxForward`, upper clamp of a requested speed, 0..255 (R6). -/
  maxForward : Nat
  /-- `maxReverse`, magnitude of the lower clamp, 0..255 (R6). -/
  maxReverse : Nat
  /-- `initTable[0..maxSpeed]`, initial PWM for a speed magnitude, each 0..255 (R6). -/
  initTable : List Byte
  /-- `calibrationOffset[w]`, −255..+255 (R6). -/
  calibrationOffset : PerWheel Int
  /-- `targetTable[0..maxSpeed]`, `uTW` microseconds, strictly decreasing (R6). -/
  targetTable : List Nat
  /-- `adjustDelay`, unsigned milliseconds (R6, U10: any unsigned value). -/
  adjustDelay : Nat
  /-- `settleDelay`, unsigned milliseconds (R6, U10: any unsigned value). -/
  settleDelay : Nat
  /-- `topology[w]` (R6). -/
  topology : PerWheel Topology
  /-- `TW`, bits of the microsecond clock, of `lastTickTime` and of each ring entry (R7, D4). -/
  tw : Nat
  /-- `MW`, bits of the millisecond clock, of `nextAdjustTime` and of the settle start time (R7, D5). -/
  mw : Nat
  /-- `SW`, bits of the signed `speed` register (R7, D3). -/
  sw : Nat
  /-- `CMD_CODE` (R7, D1). -/
  cmdCode : CmdCode
  /-- `DIR_CODE` (R7, D6). -/
  dirCode : DirCode
  /-- `REG_LITTLE_ENDIAN` (R7, D7). -/
  regLittleEndian : Bool
  deriving DecidableEq, Repr

/-- `maxSpeed = max(maxForward, maxReverse)` (R6): the largest table index. -/
def Cfg.maxSpeed (cfg : Cfg) : Nat := max cfg.maxForward cfg.maxReverse

/-- One act of an agent with the values it draws from the environment (R113): which step is next is the
environment's choice (R114), and so are the bytes of a write and the clock readings (R30).
A clock reading is given as the TRUE elapsed count; the port shows it modulo `2^TW` or `2^MW` (R30). -/
inductive Event where
  /-- port `rst` (R139) -/
  | reset
  /-- port `enc_edge[w]` (R62) -/
  | edge (w : Wheel)
  /-- the encoder interrupt of wheel `w` has its turn, `clk_us` standing at `us` (R63) -/
  | tick (w : Wheel) (us : Nat)
  /-- port `bus_write(bytes)` (R91) -/
  | busWrite (bytes : List Byte)
  /-- port `bus_read_req` (R106) -/
  | busRead
  /-- the main loop has its turn, `clk_ms` standing at `ms` (R109 to R112) -/
  | mainLoop (ms : Nat)
  deriving DecidableEq, Repr, Inhabited

/-- What the agents do when the list of inputs in State has run out: the `n`-th such act is free,
since "any enabled step of any agent may be the next step" (R114). Assumption log 4. -/
opaque Config.environment : Nat → Event

end Sys2Proof
end

