-- ==== Sys2Proof/Syntax.lean ====
section
/-! DEFINITION. The instruction set of the WCB: the nine host commands, one constructor per row of the
opcode table (R1, R50). Format C1 has no operand, format C2 has the payload byte (R49). -/

namespace Sys2Proof

/-- A host command (R50). The payload of a C2 command is an unsigned magnitude 0..255 (R49, R52). -/
inductive Instr where
  | stopBoth
  | stopLeft
  | stopRight
  | fwdBoth (p : Byte)
  | fwdLeft (p : Byte)
  | fwdRight (p : Byte)
  | revBoth (p : Byte)
  | revLeft (p : Byte)
  | revRight (p : Byte)
  deriving DecidableEq, Repr

end Sys2Proof
end

