-- ==== Sys2Proof/WellFormed.lean ====
section
/-! DEFINITION. What the spec requires of the terms the machine is given: every command is well formed (R57), a raw byte
of a command stream is one that names no command (R54, R58), and a configuration meets R6, R7 and R141. -/

namespace Sys2Proof

/-- "Out-of-range operands do not exist in the encoding: every payload value 0..255 is legal" (R57), and the payload's
type is the byte: each of the nine commands is well formed with every operand. -/
def Instr.wellFormed : Instr → Bool
  | .stopBoth => true
  | .stopLeft => true
  | .stopRight => true
  | .fwdBoth _ => true
  | .fwdLeft _ => true
  | .fwdRight _ => true
  | .revBoth _ => true
  | .revLeft _ => true
  | .revRight _ => true

/-- The nine byte values of a `CMD_CODE`, in listing order (R50). -/
def CmdCode.bytes (c : CmdCode) : List Byte :=
  [c.stopBoth, c.stopLeft, c.stopRight, c.fwdBoth, c.fwdLeft, c.fwdRight, c.revBoth, c.revLeft, c.revRight]

/-- `CMD_CODE` is injective (R7, R50, R141). -/
def CmdCode.injective (c : CmdCode) : Bool := decide c.bytes.Nodup

/-- `DIR_CODE` is injective (R141, D6). -/
def DirCode.injective (c : DirCode) : Bool := decide [c.stopped, c.forward, c.reverse].Nodup

/-- One item of a command stream as R58 writes it: a command, or a raw byte (`.byte 0x7F`). -/
inductive StreamItem where
  | command (i : Instr)
  | raw (b : Byte)
  deriving DecidableEq, Repr

/-- "A raw byte that is not a command is written `.byte`" (R58): a raw byte is none of the nine codes (R54). -/
def StreamItem.wellFormed (c : CmdCode) : StreamItem → Bool
  | .command i => i.wellFormed
  | .raw b => !c.bytes.contains b

/-- `t[i] > t[i+1]` for every `i` (R6). -/
def strictlyDecreasing : List Nat → Bool
  | [] => true
  | [_] => true
  | a :: b :: rest => decide (b < a) && strictlyDecreasing (b :: rest)

/-- Both bounds are in 0..255 (R6). -/
def Cfg.boundsLegal (cfg : Cfg) : Bool := decide (cfg.maxForward ≤ 255) && decide (cfg.maxReverse ≤ 255)

/-- Both tables have `maxSpeed + 1` entries (R6, R141). -/
def Cfg.tablesLegal (cfg : Cfg) : Bool :=
  decide (cfg.initTable.length = cfg.maxSpeed + 1) && decide (cfg.targetTable.length = cfg.maxSpeed + 1)

/-- `targetTable` holds `uTW` values and is strictly decreasing (R6). -/
def Cfg.targetsLegal (cfg : Cfg) : Bool :=
  cfg.targetTable.all (fun t => decide (t < 2 ^ cfg.tw)) && strictlyDecreasing cfg.targetTable

/-- An offset is in −255..+255 (R6). -/
def offsetLegal (o : Int) : Bool := decide (-255 ≤ o) && decide (o ≤ 255)

/-- Both calibration offsets are in −255..+255 (R6). -/
def Cfg.offsetsLegal (cfg : Cfg) : Bool :=
  offsetLegal cfg.calibrationOffset.left && offsetLegal cfg.calibrationOffset.right

/-- `SW` bits of two's complement hold the range −255..+255 that is used (R7, R19). DEDUCED, log 12. -/
def Cfg.speedWidthLegal (cfg : Cfg) : Bool := decide (9 ≤ cfg.sw)

/-- "a complete `cfg` that meets R6 and R7" (R141). -/
def Cfg.legal (cfg : Cfg) : Bool :=
  cfg.boundsLegal && cfg.tablesLegal && cfg.targetsLegal && cfg.offsetsLegal && cfg.speedWidthLegal
    && cfg.cmdCode.injective && cfg.dirCode.injective

end Sys2Proof
end

