-- ==== Sys2Proof/Decode.lean ====
section
/-! DEFINITION. The encoding of the nine commands (R49 to R53), the decoder and parser of a bus write (R53 to R56, R91),
total on any bytes and rejecting by name, then the encoder and assembler (R50, R58). -/

namespace Sys2Proof

/-- The default `CMD_CODE`: 0x00..0x08 in the source's listing order (R7, R50; the spec's decision D1). -/
def CmdCode.listingOrder : CmdCode where
  stopBoth := 0x00
  stopLeft := 0x01
  stopRight := 0x02
  fwdBoth := 0x03
  fwdLeft := 0x04
  fwdRight := 0x05
  revBoth := 0x06
  revLeft := 0x07
  revRight := 0x08

/-- `CMD_CODE(c)` (R50). -/
def CmdCode.code (c : CmdCode) : Mnemonic → Byte
  | .stopBoth => c.stopBoth
  | .stopLeft => c.stopLeft
  | .stopRight => c.stopRight
  | .fwdBoth => c.fwdBoth
  | .fwdLeft => c.fwdLeft
  | .fwdRight => c.fwdRight
  | .revBoth => c.revBoth
  | .revLeft => c.revLeft
  | .revRight => c.revRight

/-- The nine commands in the source's listing order (R50). -/
def Mnemonic.all : List Mnemonic :=
  [.stopBoth, .stopLeft, .stopRight, .fwdBoth, .fwdLeft, .fwdRight, .revBoth, .revLeft, .revRight]

/-- The format is selected by the opcode alone (R49): the three STOP commands are C1, the six FWD/REV commands are C2. -/
def Mnemonic.hasPayload : Mnemonic → Bool
  | .stopBoth => false
  | .stopLeft => false
  | .stopRight => false
  | .fwdBoth => true
  | .fwdLeft => true
  | .fwdRight => true
  | .revBoth => true
  | .revLeft => true
  | .revRight => true

/-- The command a byte in opcode position names: the whole byte (mask 0xFF) is compared with the nine values (R50).
DESIGN CHOICE (assumption log 18): when `CMD_CODE` is not injective a byte can be the value of several commands, which R141
excludes from a started machine and for which R50 and R91 give no rule; the first in the listing order is taken. -/
def CmdCode.find (c : CmdCode) (b : Byte) : Option Mnemonic :=
  Mnemonic.all.find? (fun m => c.code m == b)

/-- `cmdlen(b)` (R53): 2 for the code of a FWD or REV command, 1 for every other byte value;
the command is the one `find` takes. -/
def CmdCode.cmdlen (c : CmdCode) (b : Byte) : Nat :=
  match c.find b with
  | some m => if m.hasPayload then 2 else 1
  | none => 1

/-- The command named `m` with payload `p`; a STOP has no operand (R49). -/
def Mnemonic.withPayload (m : Mnemonic) (p : Byte) : Instr :=
  match m with
  | .stopBoth => .stopBoth
  | .stopLeft => .stopLeft
  | .stopRight => .stopRight
  | .fwdBoth => .fwdBoth p
  | .fwdLeft => .fwdLeft p
  | .fwdRight => .fwdRight p
  | .revBoth => .revBoth p
  | .revLeft => .revLeft p
  | .revRight => .revRight p

/-- What stands at the head of a command stream. The last three are the ways a decoder rejects, by name. -/
inductive Decoded where
  /-- a complete command and the bytes after it (R49) -/
  | command (i : Instr) (rest : List Byte)
  /-- a byte in opcode position that is none of the nine codes: one byte, skipped (R54, R55) -/
  | unrecognised (b : Byte) (rest : List Byte)
  /-- a FWD or REV opcode that is the last byte of its transaction: discarded (R56) -/
  | truncated (m : Mnemonic)
  /-- no byte is left (R56) -/
  | empty
  deriving DecidableEq, Repr

/-- Decode what stands at the head of a byte list (R49, R53, R54, R56); total. -/
def decode (c : CmdCode) (bytes : List Byte) : Decoded :=
  match bytes with
  | [] => .empty
  | b :: rest =>
    match c.find b with
    | none => .unrecognised b rest
    | some m =>
      if m.hasPayload then
        match rest with
        | [] => .truncated m
        | p :: rest' => .command (m.withPayload p) rest'
      else .command (m.withPayload 0) rest

/-- The parse loop of BUS_WRITE (R91): the complete commands of one transaction, in order. -/
def parse (c : CmdCode) (bytes : List Byte) : List Instr :=
  match bytes with
  | [] => []
  | b :: rest =>
    match c.find b with
    | none => parse c rest
    | some m =>
      if m.hasPayload then
        match rest with
        | [] => []
        | p :: rest' => m.withPayload p :: parse c rest'
      else m.withPayload 0 :: parse c rest

/-- The bytes of a command: the opcode, then for format C2 the payload (R49, R50). -/
def encode (c : CmdCode) : Instr → List Byte
  | .stopBoth => [c.stopBoth]
  | .stopLeft => [c.stopLeft]
  | .stopRight => [c.stopRight]
  | .fwdBoth p => [c.fwdBoth, p]
  | .fwdLeft p => [c.fwdLeft, p]
  | .fwdRight p => [c.fwdRight, p]
  | .revBoth p => [c.revBoth, p]
  | .revLeft p => [c.revLeft, p]
  | .revRight p => [c.revRight, p]

/-- The bytes of one item of a stream (R58). -/
def StreamItem.bytes (c : CmdCode) : StreamItem → List Byte
  | .command i => encode c i
  | .raw b => [b]

/-- `WRITE [...]`: the bytes of a transaction written as its items (R58). -/
def assemble (c : CmdCode) (items : List StreamItem) : List Byte :=
  items.flatMap (StreamItem.bytes c)

/-- The commands among the items of a stream, in order. -/
def commandsOf : List StreamItem → List Instr
  | [] => []
  | .command i :: rest => i :: commandsOf rest
  | .raw _ :: rest => commandsOf rest

/-- The command's name as R50 and R58 write it. -/
def Mnemonic.name : Mnemonic → String
  | .stopBoth => "STOP_BOTH"
  | .stopLeft => "STOP_LEFT"
  | .stopRight => "STOP_RIGHT"
  | .fwdBoth => "FWD_BOTH"
  | .fwdLeft => "FWD_LEFT"
  | .fwdRight => "FWD_RIGHT"
  | .revBoth => "REV_BOTH"
  | .revLeft => "REV_LEFT"
  | .revRight => "REV_RIGHT"

/-- A C2 command's text: its mnemonic followed by one decimal operand (R58). -/
def asmWithOperand (m : Mnemonic) (p : Byte) : String := m.name ++ " " ++ toString p.toNat

/-- A command's assembler text, with a decimal operand (R58). -/
def Instr.asm : Instr → String
  | .stopBoth => Mnemonic.stopBoth.name
  | .stopLeft => Mnemonic.stopLeft.name
  | .stopRight => Mnemonic.stopRight.name
  | .fwdBoth p => asmWithOperand .fwdBoth p
  | .fwdLeft p => asmWithOperand .fwdLeft p
  | .fwdRight p => asmWithOperand .fwdRight p
  | .revBoth p => asmWithOperand .revBoth p
  | .revLeft p => asmWithOperand .revLeft p
  | .revRight p => asmWithOperand .revRight p

/-- The transaction of exactly one instruction whose `nbits` bits are `w`, the first byte in bits 7..0 and the second in
bits 15..8 (the opcode table's numbering); bits above `nbits` are 0. Its length is `cmdlen` of its opcode (R53). -/
def wordBytes (c : CmdCode) (nbits w : Nat) : List Byte :=
  let v := w % 2 ^ nbits
  let b := BitVec.ofNat 8 v
  if c.cmdlen b = 2 then [b, BitVec.ofNat 8 (v / 256)] else [b]

/-- The instruction the decoder reads from an instruction word of the opcode table, under the table's own `CMD_CODE`. -/
def decodeTableWord (nbits w : Nat) : Option Instr :=
  match decode CmdCode.listingOrder (wordBytes CmdCode.listingOrder nbits w) with
  | .command i _ => some i
  | .unrecognised _ _ => none
  | .truncated _ => none
  | .empty => none

end Sys2Proof
end

