-- ==== Sys2Proof/Machine/Configuration.lean ====
section
/-! DEFINITION. The configuration in place when the machine starts (R29, R121, R141): the defaults of R7 for the parameters
the spec decides, and, for the parameters R6 names without a value, an opaque constant that meets R6. -/

namespace Sys2Proof

/-- The default `DIR_CODE`: Stopped = 0x00, Forward = 0x01, Reverse = 0x02 (R7; the spec's decision D6). -/
def DirCode.standard : DirCode where
  stopped := 0x00
  forward := 0x01
  reverse := 0x02

/-- The configuration with the parameters `p` and the defaults of R7. -/
def Cfg.withDefaults (p : Parameters) : Cfg where
  maxForward := p.maxForward
  maxReverse := p.maxReverse
  initTable := p.initTable
  calibrationOffset := p.calibrationOffset
  targetTable := p.targetTable
  adjustDelay := p.adjustDelay
  settleDelay := p.settleDelay
  topology := p.topology
  tw := 32
  mw := 32
  sw := 9
  cmdCode := CmdCode.listingOrder
  dirCode := DirCode.standard
  regLittleEndian := true

/-- The smallest parameters that meet R6. They serve `LegalParameters` alone, to show that it has a member. -/
def Parameters.smallest : Parameters where
  maxForward := 0
  maxReverse := 0
  initTable := [0]
  calibrationOffset := { left := 0, right := 0 }
  targetTable := [0]
  adjustDelay := 0
  settleDelay := 0
  topology := { left := .singlePinPWM, right := .singlePinPWM }

/-- Parameters of a machine that starts: a configuration that breaks R6 is "refused before the machine starts" (R121), and
R141 requires a complete `cfg` that meets R6 and R7. The field defaults show that the type has a member and are no value of
any machine. -/
structure LegalParameters where
  parameters : Parameters := Parameters.smallest
  legal : (Cfg.withDefaults parameters).legal = true := by decide
  deriving DecidableEq, Repr, Inhabited

/-- The parameters that start-up loading delivers from outside the WCB (R141). Nothing in Lean can evaluate them; all that
can be proved of them is that they are legal. Assumption log 1. -/
opaque Config.delivered : LegalParameters

/-- The configuration delivered by start-up loading (R141), with the defaults of R7. Assumption log 1. -/
def Cfg.loaded : Cfg := Cfg.withDefaults Config.delivered.parameters

end Sys2Proof
end

