-- ==== Sys2Proof/Machine/Memory.lean ====
section
/-! DEFINITION. The only memory a host can address, the register buffer `regmap` (R10, R23, R35, R41): eight bytes at
offsets 0..7, held as a list of cells in one canonical form. -/

namespace Sys2Proof.Machine

/-- `REG_LEN`: bytes in the register buffer (R5). There is no address outside 0..7 (R37, R41). -/
def regLen : Nat := 8

/-- Bytes by offset: offsets strictly rising, no entry equal to `Memory.unlisted`. -/
abbrev Memory := List Host.Cell

/-- What an unlisted offset reads as: 0x00, the reset contents of every byte but the two direction bytes (R24, R32). -/
def Memory.unlisted : Byte := 0x00

/-- The byte at an offset. -/
def Memory.read : Memory → Nat → Byte
  | [], _ => Memory.unlisted
  | (k, v) :: rest, a => if k = a then v else Memory.read rest a

/-- Write the byte at an offset, keeping the canonical form. -/
def Memory.write : Memory → Nat → Byte → Memory
  | [], a, b => if b = Memory.unlisted then [] else [(a, b)]
  | (k, v) :: rest, a, b =>
    if a < k then
      if b = Memory.unlisted then (k, v) :: rest else (a, b) :: (k, v) :: rest
    else if a = k then
      if b = Memory.unlisted then rest else (a, b) :: rest
    else (k, v) :: Memory.write rest a b

/-- Offsets at least `lo`, strictly rising and below `regLen`, and no listed byte is `Memory.unlisted`. -/
def Memory.canonicalFrom : Nat → Memory → Bool
  | _, [] => true
  | lo, (k, v) :: rest =>
    decide (lo ≤ k) && decide (k < regLen) && decide (v ≠ Memory.unlisted) && Memory.canonicalFrom (k + 1) rest

/-- The canonical form of the register buffer. -/
def Memory.wf (m : Memory) : Bool := Memory.canonicalFrom 0 m

/-- `RegRead(k, n)`: the `n` bytes from offset `k`, in offset order (R10). -/
def Memory.readBytes (m : Memory) (k : Nat) : Nat → List Byte
  | 0 => []
  | n + 1 => Memory.read m k :: Memory.readBytes m (k + 1) n

/-- `RegWrite(k, n, v)`: write the bytes `v` from offset `k` (R10). -/
def Memory.writeBytes (m : Memory) (k : Nat) : List Byte → Memory
  | [] => m
  | b :: rest => Memory.writeBytes (Memory.write m k b) (k + 1) rest

end Sys2Proof.Machine
end

