-- ==== Sys2Proof/Machine/State.lean ====
section
/-! DEFINITION. The state of the WCB (R13 to R29), the reasons a step can stop, and the machine right after reset (R32). -/

namespace Sys2Proof.Machine

/-- `dir[w]`: direction and state of the per-wheel state machine; `Stopped` is shown to the driver as Brake (R21). -/
inductive Dir where
  | stopped
  | forward
  | reverse
  deriving DecidableEq, Repr

/-- `mbox.sel`, the wheel selector (R25). -/
inductive Sel where
  | both
  | left
  | right
  deriving DecidableEq, Repr

/-- `mbox.act`, the action (R25). -/
inductive Act where
  | stop
  | fwd
  | rev
  deriving DecidableEq, Repr

/-- `ml_phase`, the main-loop phase (R27). -/
inductive Phase where
  | drain
  | dispatch
  | loopL
  | loopR
  deriving DecidableEq, Repr

/-- The TickSampler of one wheel (R14 to R18). -/
structure Sampler where
  /-- `buf[w][0..4]`, five `uTW` intervals (R14) -/
  buf : Vector Nat 5
  /-- `idx[w]`, the circular write index 0..4 (R15) -/
  idx : Fin 5
  /-- `last[w]`, `lastTickTime`, `uTW` (R16) -/
  last : Nat
  /-- `tick_mask[w]`, the encoder interrupt is masked (R17) -/
  tickMask : Bool
  /-- `tick_pend[w]`, an edge waits for its service (R18) -/
  tickPend : Bool
  deriving DecidableEq, Repr

/-- The WheelState of one wheel, owned by its SpeedController (R19 to R22). -/
structure Drive where
  /-- `speed[w]`, "requested signed speed" (R19) -/
  speed : Int
  /-- `pwm[w]`, "current PWM (0–255)" (R20) -/
  pwm : Byte
  /-- `dir[w]` (R21) -/
  dir : Dir
  /-- `next[w]`, `nextAdjustTime`, `uMW` milliseconds (R22) -/
  next : Nat
  deriving DecidableEq, Repr

/-- `mbox`, the CommandMailbox (R25). -/
structure Mailbox where
  valid : Bool
  sel : Sel
  act : Act
  payload : Byte
  deriving DecidableEq, Repr

/-- `pend_set[w]`, the dispatch latch: a requested speed before clamping (R26). -/
structure Latch where
  valid : Bool
  s : Int
  deriving DecidableEq, Repr

/-- `settle`, the settle-hold register (R28). -/
structure Settle where
  active : Bool
  w : Wheel
  /-- the `uMW` clock reading at which the hold began -/
  t0 : Nat
  deriving DecidableEq, Repr

/-- The state of the machine. The last three fields are the model's own, not the spec's: the environment's acts still to
come, the values seen on `bus_read_data` (R31, R117), and how many free acts have been drawn (assumption logs 2 to 4). -/
structure State where
  /-- `cfg`, in place before reset and written by no step (R29); a field so that a claim holds for every configuration -/
  cfg : Cfg
  /-- the two TickSamplers -/
  sampler : PerWheel Sampler
  /-- the two WheelStates -/
  drive : PerWheel Drive
  /-- `pend_set[w]` -/
  pendSet : PerWheel Latch
  /-- `regmap[0..7]` (R23, R24) -/
  regmap : Memory
  /-- `mbox` -/
  mbox : Mailbox
  /-- `ml_phase` -/
  mlPhase : Phase
  /-- `settle` -/
  settle : Settle
  /-- the acts the environment has in store, the next one first (R114, R117) -/
  inputs : List Event
  /-- each snapshot put on `bus_read_data[0..7]`, the oldest first (R31, R106) -/
  reads : List (List Byte)
  /-- how many acts have been drawn from `Config.environment` -/
  drawn : Nat
  deriving DecidableEq, Repr

/-- "The WCB raises no exception, trap or fault, and has no error state" (R121): there is no fault reason. Safe: a step
can stop only by a refusal. -/
inductive Fault where
  deriving DecidableEq, Repr

/-- Why a step has no next state; R121 allows this for configurations that break R6 alone. -/
inductive Refusal where
  /-- Raised by `exec` for a command without a meaning; no arm raises it. Safe: the run stops. -/
  | notModelled (mnemonic : String)
  /-- Raised by SETSPEED_COMPLETE and by an adjustment cycle when a table has no entry for a speed magnitude, "for example
  a table shorter than `maxSpeed + 1`" (R121): no rule gives a value (R36). Safe: the run stops, and no machine that
  `startUp` accepts, nor `State.reset`, ever comes to it: their configurations are legal. Assumption log 10. -/
  | tableTooShort
  /-- Raised by `startUp` for a configuration that breaks R6, R7 or R141, "refused before the machine starts" (R121, U13).
  Safe: the machine does not start. -/
  | illegalConfiguration
  deriving DecidableEq, Repr

/-- The sampler after reset (R32). -/
def Sampler.reset : Sampler where
  buf := #v[0, 0, 0, 0, 0]
  idx := 0
  last := 0
  tickMask := false
  tickPend := false

/-- The wheel after reset: "initial state is `Stopped` (speed 0, PWM 0)" (R32). -/
def Drive.reset : Drive where
  speed := 0
  pwm := 0
  dir := .stopped
  next := 0

/-- The register buffer after reset: both direction bytes hold `DIR_CODE(Stopped)`, every other byte 0x00 (R24, R32). -/
def resetRegmap (cfg : Cfg) : Memory :=
  Memory.write (Memory.write [] 0 cfg.dirCode.stopped) 4 cfg.dirCode.stopped

/-- The machine right after reset under the configuration `cfg` (R32, R139), with nothing in store from the environment. -/
def State.resetWith (cfg : Cfg) : State where
  cfg := cfg
  sampler := { left := Sampler.reset, right := Sampler.reset }
  drive := { left := Drive.reset, right := Drive.reset }
  pendSet := { left := { valid := false, s := 0 }, right := { valid := false, s := 0 } }
  regmap := resetRegmap cfg
  mbox := { valid := false, sel := .both, act := .stop, payload := 0 }
  mlPhase := .drain
  settle := { active := false, w := .left, t0 := 0 }
  inputs := []
  reads := []
  drawn := 0

/-- The machine right after reset, under the configuration that start-up loading delivers (R32, R141), which is legal by
its type, so that `startUp` accepts it (R121). -/
def State.reset : State := State.resetWith Cfg.loaded

end Sys2Proof.Machine
end

