-- ==== Sys2Proof/Machine/Operands.lean ====
section
/-! DEFINITION. The values the operations compute: the helper functions of R11, clock sampling (R30), the speed request of
a command (R104) and its clamp (R74), table lookups (R35, R78), the tick delta (R63), the average (R65) and the trim (R80). -/

namespace Sys2Proof.Machine

/-- `clamp(x, lo, hi)` (R11). -/
def clamp (x lo hi : Int) : Int := if x < lo then lo else if hi < x then hi else x

/-- `sgn(x)`, three-valued (R11; the spec's decision D9). -/
def sgn (x : Int) : Int := if x < 0 then -1 else if x = 0 then 0 else 1

/-- `sat16(x)` (R11; the spec's decision D8). -/
def sat16 (x : Nat) : Nat := if 65535 < x then 65535 else x

/-- `dirOf(x)` (R11). -/
def dirOf (x : Int) : Dir := if x = 0 then .stopped else if 0 < x then .forward else .reverse

/-- `DIR_CODE(d)`, the bus-visible byte of a direction (R24). -/
def dirByte (c : DirCode) : Dir → Byte
  | .stopped => c.stopped
  | .forward => c.forward
  | .reverse => c.reverse

/-- The internal 2-bit encoding of `dir[w]` (R21; not observable). -/
def Dir.bits : Dir → BitVec 2
  | .stopped => 0
  | .forward => 1
  | .reverse => 2

/-- The 2-bit encoding of `mbox.sel` (R25). -/
def Sel.bits : Sel → BitVec 2
  | .both => 0
  | .left => 1
  | .right => 2

/-- The 2-bit encoding of `mbox.act` (R25). -/
def Act.bits : Act → BitVec 2
  | .stop => 0
  | .fwd => 1
  | .rev => 2

/-- The 2-bit encoding of `ml_phase` (R27). -/
def Phase.bits : Phase → BitVec 2
  | .drain => 0
  | .dispatch => 1
  | .loopL => 2
  | .loopR => 3

/-- `in_us()`: the port shows the elapsed microseconds modulo `2^TW` (R10, R30). -/
def inUs (cfg : Cfg) (us : Nat) : Nat := us % 2 ^ cfg.tw

/-- `in_ms()`: the port shows the elapsed milliseconds modulo `2^MW` (R10, R30). -/
def inMs (cfg : Cfg) (ms : Nat) : Nat := ms % 2 ^ cfg.mw

/-- `(a - b) mod 2^n` of two unsigned `n`-bit values. -/
def subMod (n a b : Nat) : Nat := (((a : Int) - (b : Int)) % (2 ^ n : Nat)).toNat

/-- `delta = (now - last[w]) mod 2^TW` (R63; the spec's decision D4). -/
def tickDelta (cfg : Cfg) (now last : Nat) : Nat := subMod cfg.tw now last

/-- `speedOf(act, p)`: the argument of `setSpeed` that a drained command asks for (R104). -/
def speedOf (act : Act) (p : Byte) : Int :=
  match act with
  | .stop => 0
  | .fwd => (p.toNat : Int)
  | .rev => -(p.toNat : Int)

/-- The wheels a selector addresses (R103, R104). -/
def Sel.addresses : Sel → Wheel → Bool
  | .both, .left => true
  | .both, .right => true
  | .left, .left => true
  | .left, .right => false
  | .right, .left => false
  | .right, .right => true

/-- `s' = clamp(s, -maxReverse, maxForward)` (R74). -/
def clampRequest (cfg : Cfg) (s : Int) : Int := clamp s (-(cfg.maxReverse : Int)) (cfg.maxForward : Int)

/-- The PWM that SETSPEED_COMPLETE sets for the clamped request `s'` (R78): 0 for a stop without a table lookup, otherwise
`clamp(initTable[abs(s')] + calibrationOffset[w], 0, 255)`; none when the table has no such entry. -/
def initialPwm (cfg : Cfg) (w : Wheel) (s' : Int) : Option Byte :=
  if s' = 0 then some 0
  else
    match cfg.initTable[s'.natAbs]? with
    | some e => some (BitVec.ofNat 8 (clamp ((e.toNat : Int) + cfg.calibrationOffset.get w) 0 255).toNat)
    | none => none

/-- `targetTable[abs(speed)]` (R80); none when the table has no such entry. -/
def targetInterval (cfg : Cfg) (speed : Int) : Option Nat := cfg.targetTable[speed.natAbs]?

/-- The exact sum of the five entries (R65; the spec's decision D4). -/
def ringSum (buf : Vector Nat 5) : Nat := buf[0] + buf[1] + buf[2] + buf[3] + buf[4]

/-- `m = sum div 5`, floor (R65, R67). -/
def ringAverage (buf : Vector Nat 5) : Nat := ringSum buf / 5

/-- The PWM after an adjustment cycle that measured `m` against `target` (R80): one down, one up or unchanged, kept in
0..255. -/
def trimPwm (m target : Nat) (pwm : Byte) : Byte :=
  if m < target then
    if 0 < pwm.toNat then pwm - 1 else 0
  else if target < m then
    if pwm.toNat < 255 then pwm + 1 else 255
  else pwm

/-- `next[w] <- (now + adjustDelay) mod 2^MW` (R80). -/
def nextAdjust (cfg : Cfg) (now : Nat) : Nat := (now + cfg.adjustDelay) % 2 ^ cfg.mw

end Sys2Proof.Machine
end

