-- ==== Sys2Proof/Machine/Flags.lean ====
section
/-! DEFINITION. The conditions the operations test: enabling an encoder interrupt (R63), the sign test of `setSpeed` (R75),
the end of a settle hold (R77) and the guard of LOOP (R79). -/

namespace Sys2Proof.Machine

/-- TICK(w) is enabled: `tick_pend[w] = 1` and `tick_mask[w] = 0` (R63, R113). -/
def Sampler.tickEnabled (x : Sampler) : Bool := x.tickPend && !x.tickMask

/-- `sgn(s') != sgn(speed[w]) and speed[w] != 0`: the request takes the settle path (R75). -/
def settleNeeded (s' speed : Int) : Bool := decide (sgn s' ≠ sgn speed) && decide (speed ≠ 0)

/-- `(now - settle.t0) mod 2^MW >= settleDelay` (R77; the spec's decision D16). -/
def settleElapsed (cfg : Cfg) (now t0 : Nat) : Bool := decide (cfg.settleDelay ≤ subMod cfg.mw now t0)

/-- `(speed[w] != 0) and (now > next[w])`, a plain unsigned compare, strict (R79; the spec's decision D5). -/
def Drive.loopGuard (d : Drive) (now : Nat) : Bool := decide (d.speed ≠ 0) && decide (d.next < now)

end Sys2Proof.Machine
end

