-- ==== Sys2Proof/Machine/Ops.lean ====
section
/-! DEFINITION. The named operations over registers and the register buffer that the steps are written in: one home for
every write of a wheel's registers, of the mailbox (R102), of the dispatch latches (R26), and the telemetry refresh (R83).
The WCB takes no exception and returns from none (R121, R123); entering a handler saves nothing (R129). -/

namespace Sys2Proof.Machine

/-- Go on with the next state; a step that has none stops the sequence. -/
def andThen (o : Host.Outcome State Fault Refusal) (f : State → Host.Outcome State Fault Refusal) :
    Host.Outcome State Fault Refusal :=
  match o with
  | .next s => f s
  | .fault r => .fault r
  | .refused r => .refused r

/-- Replace the TickSampler of wheel `w`. -/
def State.setSampler (s : State) (w : Wheel) (x : Sampler) : State := { s with sampler := s.sampler.set w x }

/-- Replace the WheelState of wheel `w`. -/
def State.setDrive (s : State) (w : Wheel) (d : Drive) : State := { s with drive := s.drive.set w d }

/-- Replace `pend_set[w]`. -/
def State.setPend (s : State) (w : Wheel) (l : Latch) : State := { s with pendSet := s.pendSet.set w l }

/-- Replace `mbox`. -/
def State.setMbox (s : State) (m : Mailbox) : State := { s with mbox := m }

/-- `ml_phase <- p`. -/
def State.setPhase (s : State) (p : Phase) : State := { s with mlPhase := p }

/-- Replace `settle`. -/
def State.setSettle (s : State) (h : Settle) : State := { s with settle := h }

/-- Replace the register buffer. -/
def State.setRegmap (s : State) (m : Memory) : State := { s with regmap := m }

/-- "The group of wheel `w` starts at offset `4*w`" (R23): its direction byte. -/
def dirOffset : Wheel → Nat
  | .left => 0
  | .right => 4

/-- The PWM byte of wheel `w`, `regmap[4w+1]` (R23). -/
def pwmOffset (w : Wheel) : Nat := dirOffset w + 1

/-- The tickRate word of wheel `w`, `regmap[4w+2 .. 4w+3]` (R23). -/
def rateOffset (w : Wheel) : Nat := dirOffset w + 2

/-- The two bytes of a u16 in offset order: low byte first when `REG_LITTLE_ENDIAN`, exchanged otherwise (R38). -/
def rateBytes (cfg : Cfg) (t : Nat) : List Byte :=
  let lo := BitVec.ofNat 8 t
  let hi := BitVec.ofNat 8 (t / 256)
  if cfg.regLittleEndian then [lo, hi] else [hi, lo]

/-- `REFRESH_DP(w)` (R83): the direction and PWM bytes, from the values `dir[w]` and `pwm[w]` now have. -/
def refreshDp (w : Wheel) (s : State) : State :=
  s.setRegmap (Memory.writeBytes s.regmap (dirOffset w)
    [dirByte s.cfg.dirCode (s.drive.get w).dir, (s.drive.get w).pwm])

/-- `REFRESH_ALL(w, m)` (R83): the direction and PWM bytes, and the tickRate word `sat16(m)`. -/
def refreshAll (w : Wheel) (m : Nat) (s : State) : State :=
  let s₁ := refreshDp w s
  s₁.setRegmap (Memory.writeBytes s₁.regmap (rateOffset w) (rateBytes s.cfg (sat16 m)))

/-- `MBOX_WRITE(sel, act, p)` (R102): all four fields together, whatever `mbox.valid` was. -/
def mboxWrite (sel : Sel) (act : Act) (p : Byte) (s : State) : State :=
  s.setMbox { valid := true, sel := sel, act := act, payload := p }

/-- `pend_set[w] <- {valid = 1, s = v}` (R103). -/
def latchRequest (w : Wheel) (v : Int) (s : State) : State := s.setPend w { valid := true, s := v }

/-- `pend_set[w].valid <- 0` (R78). -/
def clearPend (w : Wheel) (s : State) : State := s.setPend w { s.pendSet.get w with valid := false }

end Sys2Proof.Machine
end

