-- ==== Sys2Proof/Machine/Commands.lean ====
section
/-! DEFINITION. The meaning of each host command when BUS_WRITE decodes it: "always one MBOX_WRITE" (R101, R102). Drain and
execution are the main-loop steps that follow (R103, R75 to R78). -/

namespace Sys2Proof.Machine

/-- `STOP_BOTH`: `MBOX_WRITE(Both, Stop, 0)` (R92). -/
def execStopBoth (s : State) : Host.Outcome State Fault Refusal := .next (mboxWrite .both .stop 0 s)

/-- `STOP_LEFT`: `MBOX_WRITE(Left, Stop, 0)` (R93). -/
def execStopLeft (s : State) : Host.Outcome State Fault Refusal := .next (mboxWrite .left .stop 0 s)

/-- `STOP_RIGHT`: `MBOX_WRITE(Right, Stop, 0)` (R94). -/
def execStopRight (s : State) : Host.Outcome State Fault Refusal := .next (mboxWrite .right .stop 0 s)

/-- `FWD_BOTH p`: `MBOX_WRITE(Both, Fwd, p)` (R95). -/
def execFwdBoth (p : Byte) (s : State) : Host.Outcome State Fault Refusal := .next (mboxWrite .both .fwd p s)

/-- `FWD_LEFT p`: `MBOX_WRITE(Left, Fwd, p)` (R96). -/
def execFwdLeft (p : Byte) (s : State) : Host.Outcome State Fault Refusal := .next (mboxWrite .left .fwd p s)

/-- `FWD_RIGHT p`: `MBOX_WRITE(Right, Fwd, p)` (R97). -/
def execFwdRight (p : Byte) (s : State) : Host.Outcome State Fault Refusal := .next (mboxWrite .right .fwd p s)

/-- `REV_BOTH p`: `MBOX_WRITE(Both, Rev, p)` (R98). -/
def execRevBoth (p : Byte) (s : State) : Host.Outcome State Fault Refusal := .next (mboxWrite .both .rev p s)

/-- `REV_LEFT p`: `MBOX_WRITE(Left, Rev, p)` (R99). -/
def execRevLeft (p : Byte) (s : State) : Host.Outcome State Fault Refusal := .next (mboxWrite .left .rev p s)

/-- `REV_RIGHT p`: `MBOX_WRITE(Right, Rev, p)` (R100). -/
def execRevRight (p : Byte) (s : State) : Host.Outcome State Fault Refusal := .next (mboxWrite .right .rev p s)

end Sys2Proof.Machine
end

