-- ==== Sys2Proof/Machine/Dispatch.lean ====
section
/-! DEFINITION. One arm per host command (R50): what BUS_WRITE does with the command it has decoded (R91). -/

namespace Sys2Proof.Machine

def exec (i : Instr) (s : State) : Host.Outcome State Fault Refusal :=
  match i with
  | .stopBoth => Sys2Proof.Machine.execStopBoth s
  | .stopLeft => Sys2Proof.Machine.execStopLeft s
  | .stopRight => Sys2Proof.Machine.execStopRight s
  | .fwdBoth p => Sys2Proof.Machine.execFwdBoth p s
  | .fwdLeft p => Sys2Proof.Machine.execFwdLeft p s
  | .fwdRight p => Sys2Proof.Machine.execFwdRight p s
  | .revBoth p => Sys2Proof.Machine.execRevBoth p s
  | .revLeft p => Sys2Proof.Machine.execRevLeft p s
  | .revRight p => Sys2Proof.Machine.execRevRight p s

end Sys2Proof.Machine
end

