-- ==== Sys2Proof/Machine/CommandInterface.lean ====
section
/-! DEFINITION. The CommandRegisterInterface: BUS_WRITE (R91), DRAIN (R103) and BUS_READ (R106). -/

namespace Sys2Proof.Machine

/-- Run the commands of one transaction in order (R91). -/
def runCommands : List Instr → State → Host.Outcome State Fault Refusal
  | [], s => .next s
  | i :: rest, s => andThen (exec i s) (runCommands rest)

/-- `BUS_WRITE(bytes)`: parse the transaction and run each complete command; one atomic step (R91). -/
def busWrite (bytes : List Byte) (s : State) : Host.Outcome State Fault Refusal :=
  runCommands (parse s.cfg.cmdCode bytes) s

/-- Latch the request of the mailbox for wheel `w` when its selector addresses `w` (R103). -/
def latchFrom (m : Mailbox) (w : Wheel) (s : State) : State :=
  if m.sel.addresses w then latchRequest w (speedOf m.act m.payload) s else s

/-- `DRAIN` (R103): take the pending command, if there is one, as one atomic swap, and go on to DISPATCH. -/
def drain (s : State) : State :=
  let taken :=
    if s.mbox.valid then
      latchFrom s.mbox .right (latchFrom s.mbox .left (s.setMbox { s.mbox with valid := false }))
    else s
  taken.setPhase .dispatch

/-- `BUS_READ` (R106): all eight bytes in offset order appear on `bus_read_data`; no other state changes. -/
def busRead (s : State) : State := { s with reads := s.reads ++ [Memory.readBytes s.regmap 0 regLen] }

end Sys2Proof.Machine
end

