-- ==== Sys2Proof/Machine/TickSampler.lean ====
section
/-! DEFINITION. The TickSampler: EDGE (R62), TICK (R63) and AVG with its three sub-steps (R65). -/

namespace Sys2Proof.Machine

/-- `EDGE(w)`: one encoder tick arrives; merged with one already pending (R62). -/
def edge (w : Wheel) (s : State) : State := s.setSampler w { s.sampler.get w with tickPend := true }

/-- The body of TICK on a sampler whose clock reads `now` (R63). -/
def Sampler.record (cfg : Cfg) (x : Sampler) (now : Nat) : Sampler where
  buf := x.buf.set x.idx.val (tickDelta cfg now x.last) x.idx.isLt
  idx := x.idx + 1
  last := now
  tickMask := x.tickMask
  tickPend := false

/-- The encoder interrupt of wheel `w` has its turn with `clk_us` at `us`: TICK(w) when it is enabled (R63); no such step
otherwise, and nothing changes (assumption log 3). -/
def tick (w : Wheel) (us : Nat) (s : State) : State :=
  if (s.sampler.get w).tickEnabled then
    s.setSampler w ((s.sampler.get w).record s.cfg (inUs s.cfg us))
  else s

/-- `AVG.MASK(w)` (R65). -/
def avgMask (w : Wheel) (s : State) : State := s.setSampler w { s.sampler.get w with tickMask := true }

/-- `AVG.SUM(w)`: the value, which no state records (R65). -/
def avgSum (w : Wheel) (s : State) : Nat := ringAverage (s.sampler.get w).buf

/-- `AVG.UNMASK(w)` (R65). -/
def avgUnmask (w : Wheel) (s : State) : State := s.setSampler w { s.sampler.get w with tickMask := false }

/-- `AVG(w)` as one step (R65, R66): the average, and the state after the mask is lifted again. -/
def avg (w : Wheel) (s : State) : Nat × State :=
  let masked := avgMask w s
  (avgSum w masked, avgUnmask w masked)

end Sys2Proof.Machine
end

