-- ==== Sys2Proof/Machine/SpeedTrim.lean ====
section
/-! DEFINITION. The SpeedController: SETSPEED_BEGIN (R75, R76), SETTLE_WAIT (R77), SETSPEED_COMPLETE (R78) and LOOP
(R79, R80). Clock readings arrive as true elapsed milliseconds. -/

namespace Sys2Proof.Machine

/-- `SETSPEED_COMPLETE(w, s')`, the tail of a SETSPEED_BEGIN or SETTLE_WAIT step (R78). -/
def setspeedComplete (w : Wheel) (s' : Int) (s : State) : Host.Outcome State Fault Refusal :=
  match initialPwm s.cfg w s' with
  | some p =>
    .next (clearPend w (refreshDp w
      (s.setDrive w { s.drive.get w with speed := s', dir := dirOf s', pwm := p })))
  | none => .refused .tableTooShort

/-- The settle path's first part: PWM 0, its byte refreshed, the hold begun at the clock's reading (R76). -/
def settleBegin (w : Wheel) (ms : Nat) (s : State) : State :=
  (refreshDp w (s.setDrive w { s.drive.get w with pwm := 0 })).setSettle
    { active := true, w := w, t0 := inMs s.cfg ms }

/-- `SETSPEED_BEGIN(w)` (R75): clamp first, then the sign test on the clamped request. -/
def setspeedBegin (w : Wheel) (ms : Nat) (s : State) : Host.Outcome State Fault Refusal :=
  if settleNeeded (clampRequest s.cfg (s.pendSet.get w).s) (s.drive.get w).speed then
    .next (settleBegin w ms s)
  else setspeedComplete w (clampRequest s.cfg (s.pendSet.get w).s) s

/-- `SETTLE_WAIT` (R77): complete when the delay has elapsed, otherwise no change. -/
def settleWait (ms : Nat) (s : State) : Host.Outcome State Fault Refusal :=
  if settleElapsed s.cfg (inMs s.cfg ms) s.settle.t0 then
    setspeedComplete s.settle.w (clampRequest s.cfg (s.pendSet.get s.settle.w).s)
      (s.setSettle { s.settle with active := false })
  else .next s

/-- An adjustment cycle of wheel `w` at clock reading `now` that measured `m` against `target` (R80). -/
def adjust (w : Wheel) (now m target : Nat) (s : State) : State :=
  refreshAll w m
    (s.setDrive w { s.drive.get w with
      pwm := trimPwm m target (s.drive.get w).pwm, next := nextAdjust s.cfg now })

/-- The body of LOOP when its guard is true: the average, then a skipped cycle or an adjustment cycle (R80). -/
def loopBody (w : Wheel) (now : Nat) (s : State) : Host.Outcome State Fault Refusal :=
  let (m, s₁) := avg w s
  if m = 0 then .next s₁
  else
    match targetInterval s.cfg (s.drive.get w).speed with
    | some target => .next (adjust w now m target s₁)
    | none => .refused .tableTooShort

/-- `LOOP(w)` but for the phase (R79): `now` is sampled once; with a false guard nothing changes and AVG is not called. -/
def loop (w : Wheel) (ms : Nat) (s : State) : Host.Outcome State Fault Refusal :=
  if (s.drive.get w).loopGuard (inMs s.cfg ms) then loopBody w (inMs s.cfg ms) s else .next s

end Sys2Proof.Machine
end

