-- ==== Sys2Proof/Machine/MainLoop.lean ====
section
/-! DEFINITION. The main-loop sequencer (R109 to R112), the reset operation (R139), start-up (R121, R141), and one act of
any agent (R113). -/

namespace Sys2Proof.Machine

/-- The main-loop steps of R113. -/
inductive MainStep where
  | drain
  | settleWait
  | setspeedBegin (w : Wheel)
  | dispatchDone
  | loop (w : Wheel)
  deriving DecidableEq, Repr

/-- The one main-loop step that is enabled (R110 to R113). -/
def enabledMainStep (s : State) : MainStep :=
  match s.mlPhase with
  | .drain => .drain
  | .dispatch =>
    if s.settle.active then .settleWait
    else if (s.pendSet.get .left).valid then .setspeedBegin .left
    else if (s.pendSet.get .right).valid then .setspeedBegin .right
    else .dispatchDone
  | .loopL => .loop .left
  | .loopR => .loop .right

/-- The phase after LOOP(w) (R111, R112). -/
def phaseAfterLoop : Wheel → Phase
  | .left => .loopR
  | .right => .drain

/-- `DISPATCH_DONE` (R110). -/
def dispatchDone (s : State) : State := s.setPhase .loopL

/-- LOOP(w) followed in the same step by the advance of the phase, whether or not the guard passed (R111, R112). -/
def loopStep (w : Wheel) (ms : Nat) (s : State) : Host.Outcome State Fault Refusal :=
  andThen (loop w ms s) (fun t => .next (t.setPhase (phaseAfterLoop w)))

/-- One main-loop step, with `clk_ms` at `ms` for the steps that sample it (R113). -/
def mainStep (ms : Nat) (s : State) : Host.Outcome State Fault Refusal :=
  match enabledMainStep s with
  | .drain => .next (drain s)
  | .settleWait => settleWait ms s
  | .setspeedBegin w => setspeedBegin w ms s
  | .dispatchDone => .next (dispatchDone s)
  | .loop w => loopStep w ms s

/-- `RESET` (R139): every state element takes its reset value and `cfg` is kept; what the environment has in store and what
was seen on the output port are no state of the WCB. -/
def resetStep (s : State) : State :=
  { State.resetWith s.cfg with inputs := s.inputs, reads := s.reads, drawn := s.drawn }

/-- One act of one agent: a row of the table of R113. -/
def perform (e : Event) (s : State) : Host.Outcome State Fault Refusal :=
  match e with
  | .reset => .next (resetStep s)
  | .edge w => .next (edge w s)
  | .tick w us => .next (tick w us s)
  | .busWrite bytes => busWrite bytes s
  | .busRead => .next (busRead s)
  | .mainLoop ms => mainStep ms s

/-- Start-up (R141): the machine right after reset, or a configuration "refused before the machine starts" (R121, U13). -/
def startUp (cfg : Cfg) : Host.Outcome State Fault Refusal :=
  if cfg.legal then .next (State.resetWith cfg) else .refused .illegalConfiguration

end Sys2Proof.Machine
end

