-- ==== Sys2Proof/Machine/Step.lean ====
section
/-! DEFINITION. The step function: the next act the environment has in store, or, when none is left, a free one (R114);
and the placing of one command where the next step takes it. -/

namespace Sys2Proof.Machine

/-- One atomic step of the machine (R8, R113, R114). -/
def step (s : State) : Host.Outcome State Fault Refusal :=
  match s.inputs with
  | e :: rest => perform e { s with inputs := rest }
  | [] => perform (Config.environment s.drawn) { s with drawn := s.drawn + 1 }

/-- `s` with a write transaction of exactly the instruction word `w` as the next act of the environment (R91). The WCB
fetches no instructions (R47): a command reaches it only so. Assumption log 5. -/
def State.withFetchWord (s : State) (nbits w : Nat) : State :=
  { s with inputs := .busWrite (wordBytes s.cfg.cmdCode nbits w) :: s.inputs }

end Sys2Proof.Machine
end

