-- ==== Sys2Proof/Machine/WheelDriver.lean ====
section
/-! DEFINITION. The output stage: `pwm_out`, `dir_out` and the pins are wires from the state (R31, R85 to R89). -/

namespace Sys2Proof.Machine

/-- A pin's level. -/
inductive Level where
  | low
  | high
  deriving DecidableEq, Repr

/-- The argument of `setDirection(Forward|Reverse|Brake)` (R31, R86). -/
inductive DriverDir where
  | forward
  | reverse
  | brake
  deriving DecidableEq, Repr

/-- The pins of a wheel, by its topology (R87 to R89). The PWM pin carries a duty value 0..255. -/
inductive Pins where
  | singlePin (pwm : Byte) (dirPin : Level)
  | dualPhase (pwm : Byte) (ph1 ph2 : Level)
  deriving DecidableEq, Repr

/-- `pwm_out[w]` (R31). -/
def pwmOut (s : State) (w : Wheel) : Byte := (s.drive.get w).pwm

/-- `dir[w]` with Stopped shown as Brake (R31, R86). -/
def driverDir : Dir → DriverDir
  | .stopped => .brake
  | .forward => .forward
  | .reverse => .reverse

/-- `dir_out[w]` (R31). -/
def dirOut (s : State) (w : Wheel) : DriverDir := driverDir (s.drive.get w).dir

/-- The direction pin of `SinglePinPWM`: "LOW=forward/HIGH=reverse" (R88); LOW for Brake (the spec's decision D21). -/
def dirPin : DriverDir → Level
  | .forward => .low
  | .reverse => .high
  | .brake => .low

/-- The phase pins `(ph1, ph2)` of `DualPhasePWM` (R89). -/
def phasePins : DriverDir → Level × Level
  | .brake => (.low, .low)
  | .forward => (.low, .high)
  | .reverse => (.high, .low)

/-- The pins of wheel `w` (R31, R87 to R89). -/
def pins (s : State) (w : Wheel) : Pins :=
  match s.cfg.topology.get w with
  | .singlePinPWM => .singlePin (pwmOut s w) (dirPin (dirOut s w))
  | .dualPhasePWM => .dualPhase (pwmOut s w) (phasePins (dirOut s w)).1 (phasePins (dirOut s w)).2

end Sys2Proof.Machine
end

