-- ==== Sys2Proof/Safety.lean ====
section
/-! DEFINITION. What counts as a safe state (the invariants of R33 with the value ranges of R14 to R28) and a run of acts,
in the terms the claims use. -/

namespace Sys2Proof

/-- An act of an interrupt handler or an encoder edge (R124): what may fall between two main-loop steps. -/
def Event.isInterrupt : Event → Bool
  | .reset => false
  | .edge _ => true
  | .tick _ _ => true
  | .busWrite _ => true
  | .busRead => true
  | .mainLoop _ => false

/-- The turn of the encoder interrupt of wheel `w`. -/
def Event.isTickOf (w : Wheel) : Event → Bool
  | .reset => false
  | .edge _ => false
  | .tick v _ => decide (v = w)
  | .busWrite _ => false
  | .busRead => false
  | .mainLoop _ => false

end Sys2Proof

namespace Sys2Proof.Machine

/-- The items of R33 about one wheel, and the ranges of its registers. -/
structure WheelInv (s : State) (w : Wheel) : Prop where
  /-- every ring entry is a `uTW` value (R14) -/
  ring : ∀ i : Fin 5, (s.sampler.get w).buf[i] < 2 ^ s.cfg.tw
  /-- `last[w]` is a `uTW` value (R16) -/
  last : (s.sampler.get w).last < 2 ^ s.cfg.tw
  /-- `tick_mask[w] = 0` whenever the main loop is not inside an AVG (R33 item 10) -/
  unmasked : (s.sampler.get w).tickMask = false
  /-- `next[w]` is a `uMW` value (R22) -/
  next : (s.drive.get w).next < 2 ^ s.cfg.mw
  /-- `-maxReverse <= speed[w] <= maxForward` (R33 item 3) -/
  speedLow : -(s.cfg.maxReverse : Int) ≤ (s.drive.get w).speed
  speedHigh : (s.drive.get w).speed ≤ (s.cfg.maxForward : Int)
  /-- `dir[w] = dirOf(speed[w])` (R33 item 5) -/
  dir : (s.drive.get w).dir = dirOf (s.drive.get w).speed
  /-- `speed[w] = 0` implies `pwm[w] = 0` (R33 item 6) -/
  stopped : (s.drive.get w).speed = 0 → (s.drive.get w).pwm = 0
  /-- `regmap[4w] = DIR_CODE(dir[w])` (R33 item 7) -/
  dirByte : Memory.read s.regmap (dirOffset w) = dirByte s.cfg.dirCode (s.drive.get w).dir
  /-- `regmap[4w+1] = pwm[w]` (R33 item 7) -/
  pwmByte : Memory.read s.regmap (pwmOffset w) = (s.drive.get w).pwm
  /-- a latched request is in −255..+255 (R26) -/
  requestLow : -255 ≤ (s.pendSet.get w).s
  requestHigh : (s.pendSet.get w).s ≤ 255
  /-- a latch is set only in the DISPATCH phase (R103, R110) -/
  latched : (s.pendSet.get w).valid = true → s.mlPhase = .dispatch

/-- The settle-hold register (R28, R33 item 8). -/
structure SettleInv (s : State) : Prop where
  t0 : s.settle.t0 < 2 ^ s.cfg.mw
  phase : s.settle.active = true → s.mlPhase = .dispatch
  request : s.settle.active = true → (s.pendSet.get s.settle.w).valid = true
  pwm : s.settle.active = true → (s.drive.get s.settle.w).pwm = 0
  moving : s.settle.active = true → (s.drive.get s.settle.w).speed ≠ 0

/-- The invariant of the machine (R33). -/
structure MachineInv (s : State) : Prop where
  wheel : ∀ w, WheelInv s w
  settle : SettleInv s
  regmap : Memory.wf s.regmap = true

/-- The acts `es` one after another, stopping at the first that has no next state. -/
def performAll : List Event → State → Host.Outcome State Fault Refusal
  | [], s => .next s
  | e :: rest, s => andThen (perform e s) (performAll rest)

/-- The edges and services of ticks of wheel `w` at the microsecond counts `us`, one after another (R63). -/
def ticksOf (w : Wheel) (us : List Nat) : List Event := us.flatMap (fun t => [.edge w, .tick w t])

/-- The request that a drained command leaves for wheel `w`: the column "Drain" of R92 to R100. -/
def requestOf : Instr → Wheel → Option Int
  | .stopBoth, _ => some 0
  | .stopLeft, .left => some 0
  | .stopLeft, .right => none
  | .stopRight, .left => none
  | .stopRight, .right => some 0
  | .fwdBoth p, _ => some p.toNat
  | .fwdLeft p, .left => some p.toNat
  | .fwdLeft _, .right => none
  | .fwdRight _, .left => none
  | .fwdRight p, .right => some p.toNat
  | .revBoth p, _ => some (-p.toNat)
  | .revLeft p, .left => some (-p.toNat)
  | .revLeft _, .right => none
  | .revRight _, .left => none
  | .revRight p, .right => some (-p.toNat)

/-- The wheels a command addresses, in the order they are served: left first (R104, R110). -/
def wheelsOf (i : Instr) : List Wheel := [Wheel.left, Wheel.right].filter (fun w => (requestOf i w).isSome)

end Sys2Proof.Machine
end

