-- ==== Sys2Proof/Certificates/Slice0/Obligations.lean ====
section
/-! DEFINITION. The statements for the provers. Each docstring names the rule it formalises. A rule that ends in
"[decision: …]" is the spec's own choice D<n>; the docstring says so where a statement rests on one. -/

open Sys2Proof Sys2Proof.Machine

/-! ## Encoding -/

/-- R50: the nine rows of the opcode map written out as bytes, under the default `CMD_CODE` (decision D1), with any
payload and anything after them; 0x09 and 0xFF name no command. -/
def Obligations.TableWordsDecodeToTheirCommands : Prop :=
  ∀ (p : Byte) (rest : List Byte),
    decode CmdCode.listingOrder (0x00 :: rest) = .command .stopBoth rest ∧
    decode CmdCode.listingOrder (0x01 :: rest) = .command .stopLeft rest ∧
    decode CmdCode.listingOrder (0x02 :: rest) = .command .stopRight rest ∧
    decode CmdCode.listingOrder (0x03 :: p :: rest) = .command (.fwdBoth p) rest ∧
    decode CmdCode.listingOrder (0x04 :: p :: rest) = .command (.fwdLeft p) rest ∧
    decode CmdCode.listingOrder (0x05 :: p :: rest) = .command (.fwdRight p) rest ∧
    decode CmdCode.listingOrder (0x06 :: p :: rest) = .command (.revBoth p) rest ∧
    decode CmdCode.listingOrder (0x07 :: p :: rest) = .command (.revLeft p) rest ∧
    decode CmdCode.listingOrder (0x08 :: p :: rest) = .command (.revRight p) rest ∧
    decode CmdCode.listingOrder (0x09 :: rest) = .unrecognised 0x09 rest ∧
    decode CmdCode.listingOrder (0xFF :: rest) = .unrecognised 0xFF rest

/-- R49, R50: under every injective `CMD_CODE`, each command with each operand decodes from its own encoding, whatever
bytes follow. -/
def Obligations.DecodeOfEncodeIsTheCommand : Prop :=
  ∀ (c : CmdCode) (i : Instr) (rest : List Byte), c.injective = true → i.wellFormed = true →
    decode c (encode c i ++ rest) = .command i rest

/-- R49, R50: whatever decodes to a command is that command's encoding and the bytes after it. -/
def Obligations.DecodedBytesAreTheEncoding : Prop :=
  ∀ (c : CmdCode) (bytes : List Byte) (i : Instr) (rest : List Byte),
    decode c bytes = .command i rest → bytes = encode c i ++ rest

/-- R49, R53, R54, R91 (decision D18): a transaction assembled from any commands and any raw bytes that name no
command parses to exactly its commands, in order. -/
def Obligations.ParseOfAssembledStream : Prop :=
  ∀ (c : CmdCode) (items : List StreamItem), c.injective = true → (∀ x ∈ items, x.wellFormed c = true) →
    parse c (assemble c items) = commandsOf items

/-- R91 (decision D18): every byte list whatever is a stream of commands and skipped bytes, with at most one truncated
FWD or REV opcode at its end, and parses to those commands. -/
def Obligations.EveryByteListIsAStream : Prop :=
  ∀ (c : CmdCode) (bytes : List Byte), ∃ (items : List StreamItem) (tail : List Byte),
    (∀ x ∈ items, x.wellFormed c = true) ∧ bytes = assemble c items ++ tail ∧ parse c bytes = commandsOf items ∧
    (tail = [] ∨ ∃ m : Mnemonic, m.hasPayload = true ∧ tail = [c.code m])

/-- R54 (one byte skipped: decision D18): a byte in opcode position, after any complete items, that is none of the
nine codes changes nothing of what the transaction does; alone it changes no state; there are 247 such values. -/
def Obligations.UnrecognisedByteIsANoOp : Prop :=
  ∀ s : State, s.cfg.cmdCode.injective = true →
    ((List.range 256).filter (fun n => !s.cfg.cmdCode.bytes.contains (BitVec.ofNat 8 n))).length = 247 ∧
    ∀ (items : List StreamItem) (b : Byte) (rest : List Byte),
      (∀ x ∈ items, x.wellFormed s.cfg.cmdCode = true) → s.cfg.cmdCode.bytes.contains b = false →
      busWrite (assemble s.cfg.cmdCode items ++ b :: rest) s = busWrite (assemble s.cfg.cmdCode items ++ rest) s ∧
      busWrite [b] s = .next s

/-- R56 (decision D18): a FWD or REV opcode as the last byte of a transaction is discarded, and an empty transaction
is a no-op. -/
def Obligations.TruncatedCommandIsDiscarded : Prop :=
  ∀ (s : State) (items : List StreamItem) (m : Mnemonic), s.cfg.cmdCode.injective = true →
    (∀ x ∈ items, x.wellFormed s.cfg.cmdCode = true) → m.hasPayload = true →
    busWrite (assemble s.cfg.cmdCode items ++ [s.cfg.cmdCode.code m]) s = busWrite (assemble s.cfg.cmdCode items) s ∧
    busWrite [s.cfg.cmdCode.code m] s = .next s ∧ busWrite [] s = .next s

/-- R51 (default numbering: decision D1; field encodings: D19): under the default `CMD_CODE`, `opcode = 3 * act +
sel`, with the 2-bit codes of the fields the command leaves in the mailbox. -/
def Obligations.DefaultOpcodeFactors : Prop :=
  ∀ (i : Instr) (s : State), ∃ t, exec i s = .next t ∧
    (encode CmdCode.listingOrder i).head? =
      some (BitVec.ofNat 8 (3 * t.mbox.act.bits.toNat + t.mbox.sel.bits.toNat))

/-! ## The nine commands -/

/-- R102, with the "Decode" line of R92 to R100: each command completes in every state and replaces all four fields of
the mailbox together, whatever `mbox.valid` was, and nothing else. -/
def Obligations.CommandsReplaceTheMailbox : Prop :=
  ∀ (s : State) (p : Byte),
    exec .stopBoth s = .next { s with mbox := { valid := true, sel := .both, act := .stop, payload := 0 } } ∧
    exec .stopLeft s = .next { s with mbox := { valid := true, sel := .left, act := .stop, payload := 0 } } ∧
    exec .stopRight s = .next { s with mbox := { valid := true, sel := .right, act := .stop, payload := 0 } } ∧
    exec (.fwdBoth p) s = .next { s with mbox := { valid := true, sel := .both, act := .fwd, payload := p } } ∧
    exec (.fwdLeft p) s = .next { s with mbox := { valid := true, sel := .left, act := .fwd, payload := p } } ∧
    exec (.fwdRight p) s = .next { s with mbox := { valid := true, sel := .right, act := .fwd, payload := p } } ∧
    exec (.revBoth p) s = .next { s with mbox := { valid := true, sel := .both, act := .rev, payload := p } } ∧
    exec (.revLeft p) s = .next { s with mbox := { valid := true, sel := .left, act := .rev, payload := p } } ∧
    exec (.revRight p) s = .next { s with mbox := { valid := true, sel := .right, act := .rev, payload := p } }

/-- R91 ("State written: `mbox` only"): the frame of every command, over every part of the state and every byte of the
register buffer; the mailbox is its only destination. -/
def Obligations.CommandFrame : Prop :=
  ∀ (i : Instr) (s : State), ∃ t, exec i s = .next t ∧
    t.cfg = s.cfg ∧ t.sampler = s.sampler ∧ t.drive = s.drive ∧ t.pendSet = s.pendSet ∧
    (∀ a, Memory.read t.regmap a = Memory.read s.regmap a) ∧ t.mlPhase = s.mlPhase ∧ t.settle = s.settle ∧
    t.inputs = s.inputs ∧ t.reads = s.reads ∧ t.drawn = s.drawn

/-- R91: when the bytes of the next write transaction decode to one command, the step runs that command; in particular
for the encoding of any command, and for a transaction placed by `withFetchWord`. That the next transaction stands at
the head of `inputs` and is taken from there is the model's choice (DESIGN CHOICE, log 2), and that a command reaches
the machine by `withFetchWord` is the model's reading (DEDUCED, log 5); neither is a rule of the spec. -/
def Obligations.StepRunsTheDecodedCommand : Prop :=
  (∀ (s : State) (bytes : List Byte) (rest : List Event) (i : Instr),
    s.inputs = .busWrite bytes :: rest → decode s.cfg.cmdCode bytes = .command i [] →
    step s = exec i { s with inputs := rest }) ∧
  (∀ (s : State) (i : Instr) (rest : List Event), s.cfg.cmdCode.injective = true →
    s.inputs = .busWrite (encode s.cfg.cmdCode i) :: rest → step s = exec i { s with inputs := rest }) ∧
  (∀ (s : State) (nbits w : Nat) (i : Instr), s.cfg.cmdCode = CmdCode.listingOrder →
    decodeTableWord nbits w = some i → step (s.withFetchWord nbits w) = exec i s)

/-- R114: a step takes the next act in store, and with none in store a free one (the model's choice, log 4). -/
def Obligations.StepTakesTheNextAct : Prop :=
  ∀ s : State,
    (∀ (e : Event) (rest : List Event), s.inputs = e :: rest → step s = perform e { s with inputs := rest }) ∧
    (s.inputs = [] → step s = perform (Config.environment s.drawn) { s with drawn := s.drawn + 1 })

/-- R52: the payload byte is never examined as an opcode, is stored unchanged in the mailbox, and becomes the signed
request `+p`, `-p` or `0` in −255..+255 only at DRAIN. -/
def Obligations.PayloadIsAnUnsignedMagnitude : Prop :=
  ∀ (s : State) (m : Mnemonic) (p : Byte) (rest : List Byte) (ms : Nat),
    s.cfg.cmdCode.injective = true → s.mlPhase = .drain →
    (m.hasPayload = true →
      parse s.cfg.cmdCode (s.cfg.cmdCode.code m :: p :: rest) = m.withPayload p :: parse s.cfg.cmdCode rest) ∧
    ∃ t u, perform (.busWrite (encode s.cfg.cmdCode (m.withPayload p))) s = .next t ∧
      t.mbox.payload = (if m.hasPayload then p else 0) ∧ t.pendSet = s.pendSet ∧
      perform (.mainLoop ms) t = .next u ∧
      ∀ w, t.mbox.sel.addresses w = true →
        (u.pendSet.get w).valid = true ∧ -255 ≤ (u.pendSet.get w).s ∧ (u.pendSet.get w).s ≤ 255 ∧
        (u.pendSet.get w).s =
          match t.mbox.act with
          | .stop => 0
          | .fwd => (p.toNat : Int)
          | .rev => -(p.toNat : Int)

/-- R105 (a), R91: of all the commands of one transaction only the last complete one is left; a transaction without a
complete command changes nothing. -/
def Obligations.LastCommandOfATransactionWins : Prop :=
  ∀ (s : State) (bytes : List Byte),
    (parse s.cfg.cmdCode bytes = [] → perform (.busWrite bytes) s = .next s) ∧
    (∀ (before : List Instr) (i : Instr), parse s.cfg.cmdCode bytes = before ++ [i] →
      perform (.busWrite bytes) s = exec i s)

/-- R103, R104 (decision D15): DRAIN takes the whole pending command in one step, clears `valid`, latches the request
of each addressed wheel and goes on to DISPATCH; with an empty mailbox it only goes on. -/
def Obligations.DrainIsAnAtomicSwap : Prop :=
  ∀ (s : State) (ms : Nat), s.mlPhase = .drain →
    (s.mbox.valid = false → perform (.mainLoop ms) s = .next { s with mlPhase := .dispatch }) ∧
    (s.mbox.valid = true →
      perform (.mainLoop ms) s = .next { s with
        mlPhase := .dispatch
        mbox := { s.mbox with valid := false }
        pendSet := {
          left := if s.mbox.sel = .right then s.pendSet.left
            else { valid := true, s := speedOf s.mbox.act s.mbox.payload }
          right := if s.mbox.sel = .left then s.pendSet.right
            else { valid := true, s := speedOf s.mbox.act s.mbox.payload } } }) ∧
    speedOf .stop s.mbox.payload = 0 ∧ speedOf .fwd s.mbox.payload = (s.mbox.payload.toNat : Int) ∧
    speedOf .rev s.mbox.payload = -(s.mbox.payload.toNat : Int) ∧
    (MachineInv s → (s.pendSet.get .left).valid = false ∧ (s.pendSet.get .right).valid = false)

/-- The "Decode" and "Drain" lines of R92 to R100 (decisions D15, D24): each command, decoded and then drained,
latches exactly the requests of its rule. -/
def Obligations.EveryCommandLatchesItsRequests : Prop :=
  ∀ (i : Instr) (s : State) (ms : Nat), s.mlPhase = .drain → s.cfg.cmdCode.injective = true →
    ∃ t, performAll [.busWrite (encode s.cfg.cmdCode i), .mainLoop ms] s = .next t ∧
      t.mlPhase = .dispatch ∧ t.mbox.valid = false ∧ t.drive = s.drive ∧
      ∀ w, t.pendSet.get w =
        match requestOf i w with
        | some v => { valid := true, s := v }
        | none => s.pendSet.get w

/-- R92 to R100, the "Execution" line (decisions D2, D15, D24) when no addressed wheel has to settle: write, drain,
and one SETSPEED step for each addressed wheel, left first, leave each addressed wheel with the clamped speed, its
direction and its initial PWM, both shown in the register buffer, and the other wheel as it was. -/
def Obligations.DirectCommandSetsItsWheels : Prop :=
  ∀ (i : Instr) (s : State) (ms : Nat), MachineInv s → s.cfg.legal = true → s.mlPhase = .drain →
    (∀ w v, requestOf i w = some v → (s.drive.get w).speed = 0 ∨
      sgn (clampRequest s.cfg v) = sgn (s.drive.get w).speed) →
    ∃ t, performAll (.busWrite (encode s.cfg.cmdCode i) :: .mainLoop ms :: (wheelsOf i).map (fun _ => .mainLoop ms)) s
        = .next t ∧
      enabledMainStep t = .dispatchDone ∧
      ∀ w,
        Memory.read t.regmap (dirOffset w) = dirByte s.cfg.dirCode (t.drive.get w).dir ∧
        Memory.read t.regmap (pwmOffset w) = (t.drive.get w).pwm ∧
        match requestOf i w with
        | some v =>
          (t.drive.get w).speed = clampRequest s.cfg v ∧ (t.drive.get w).dir = dirOf (clampRequest s.cfg v) ∧
          some (t.drive.get w).pwm = initialPwm s.cfg w (clampRequest s.cfg v) ∧
          (t.drive.get w).next = (s.drive.get w).next
        | none => t.drive.get w = s.drive.get w

/-- R108, the source's command scenario (decisions D15, D17, D24): `FWD_LEFT 120` to a left wheel that is Stopped or
Forward, with `maxForward >= 120` and an initial PWM of 120, shows `leftDirection = Forward`, `leftPWM = 120` after
one drain and its dispatch. -/
def Obligations.ForwardLeft120ShowsInRegisterMap : Prop :=
  ∀ (s : State) (e : Byte) (ms : Nat), MachineInv s → s.cfg.cmdCode.injective = true → s.mlPhase = .drain →
    (s.drive.get .left).dir ≠ .reverse → 120 ≤ s.cfg.maxForward → s.cfg.initTable[120]? = some e →
    clamp ((e.toNat : Int) + s.cfg.calibrationOffset.get .left) 0 255 = 120 →
    ∃ t, performAll [.busWrite (encode s.cfg.cmdCode (.fwdLeft 120)), .mainLoop ms, .mainLoop ms] s = .next t ∧
      Memory.read t.regmap 0 = s.cfg.dirCode.forward ∧ Memory.read t.regmap 1 = 120 ∧
      enabledMainStep t = .dispatchDone

/-- R92, R72, the corner case of two moving wheels (decisions D2, D9, D16): `STOP_BOTH` holds the left wheel for its
settle delay with the right wheel running on, then the right wheel for its own, and leaves both Stopped with the
tickRate words as they were. -/
def Obligations.StopBothStopsTwoMovingWheelsInTwoHolds : Prop :=
  ∀ (s : State) (m₀ m₁ m₂ m₃ m₄ : Nat), MachineInv s → s.cfg.cmdCode.injective = true → s.mlPhase = .drain →
    (∀ w, (s.drive.get w).speed ≠ 0) →
    settleElapsed s.cfg (inMs s.cfg m₂) (inMs s.cfg m₁) = true →
    settleElapsed s.cfg (inMs s.cfg m₄) (inMs s.cfg m₃) = true →
    ∃ a t, performAll [.busWrite (encode s.cfg.cmdCode .stopBoth), .mainLoop m₀, .mainLoop m₁] s = .next a ∧
      a.settle = { active := true, w := .left, t0 := inMs s.cfg m₁ } ∧ (a.drive.get .left).pwm = 0 ∧
      a.drive.get .right = s.drive.get .right ∧
      performAll [.mainLoop m₂, .mainLoop m₃, .mainLoop m₄] a = .next t ∧ enabledMainStep t = .dispatchDone ∧
      ∀ w, (t.drive.get w).speed = 0 ∧ (t.drive.get w).dir = .stopped ∧ (t.drive.get w).pwm = 0 ∧
        Memory.read t.regmap (dirOffset w) = s.cfg.dirCode.stopped ∧ Memory.read t.regmap (pwmOffset w) = 0 ∧
        Memory.read t.regmap (rateOffset w) = Memory.read s.regmap (rateOffset w) ∧
        Memory.read t.regmap (rateOffset w + 1) = Memory.read s.regmap (rateOffset w + 1)

/-- R59: `FWD_x 0` and `REV_x 0` leave the same requests as `STOP_x`. -/
def Obligations.ZeroPayloadActsAsStop : Prop :=
  ∀ (s : State) (ms : Nat), s.mlPhase = .drain →
    ∀ x ∈ [(Instr.fwdBoth 0, Instr.stopBoth), (.revBoth 0, .stopBoth), (.fwdLeft 0, .stopLeft), (.revLeft 0, .stopLeft),
        (.fwdRight 0, .stopRight), (.revRight 0, .stopRight)],
      ∃ t u, andThen (exec x.1 s) (mainStep ms) = .next t ∧ andThen (exec x.2 s) (mainStep ms) = .next u ∧
        t.pendSet = u.pendSet ∧ t.drive = u.drive

/-- R45: once drained, a command is not drained again: the mailbox stays empty until the next write transaction. -/
def Obligations.EmptyMailboxStaysEmptyWithoutAWrite : Prop :=
  ∀ (es : List Event) (s t : State), s.mbox.valid = false → (∀ e ∈ es, ∀ bytes, e ≠ .busWrite bytes) →
    performAll es s = .next t → t.mbox.valid = false

/-! ## The TickSampler -/

/-- R62 (decision D11): EDGE is enabled in every state, writes `tick_pend[w]` and nothing else, and merges with an
edge already pending. -/
def Obligations.EdgeIsLatchedAndMerged : Prop :=
  ∀ (s : State) (w : Wheel),
    perform (.edge w) s = .next (s.setSampler w { s.sampler.get w with tickPend := true }) ∧
    ((s.sampler.get w).tickPend = true → perform (.edge w) s = .next s) ∧
    performAll [.edge w, .edge w] s = performAll [.edge w] s

/-- R63, R69 (decisions D4, D11): TICK(w), when pending and not masked, stores the delta modulo `2^TW` at the write
index, advances the index modulo 5, takes the clock as `last` and clears the pending edge, and touches nothing else. -/
def Obligations.TickRecordsTheDelta : Prop :=
  ∀ (s : State) (w : Wheel) (us : Nat),
    (s.sampler.get w).tickPend = true → (s.sampler.get w).tickMask = false →
    ∃ t, perform (.tick w us) s = .next t ∧
      (((t.sampler.get w).buf[(s.sampler.get w).idx] : Nat) : Int) =
        ((us % 2 ^ s.cfg.tw : Nat) - (s.sampler.get w).last : Int) % (2 ^ s.cfg.tw : Nat) ∧
      (∀ i : Fin 5, i ≠ (s.sampler.get w).idx → (t.sampler.get w).buf[i] = (s.sampler.get w).buf[i]) ∧
      (t.sampler.get w).idx.val = ((s.sampler.get w).idx.val + 1) % 5 ∧
      (t.sampler.get w).last = us % 2 ^ s.cfg.tw ∧ (t.sampler.get w).tickPend = false ∧
      (t.sampler.get w).tickMask = false ∧
      t = s.setSampler w (t.sampler.get w)

/-- R63, R113: without a pending edge, or while masked, there is no TICK; the turn changes nothing (the model's
choice, log 3). -/
def Obligations.DisabledTickChangesNothing : Prop :=
  ∀ (s : State) (w : Wheel) (us : Nat),
    ((s.sampler.get w).tickPend = false ∨ (s.sampler.get w).tickMask = true) → perform (.tick w us) s = .next s

/-- R64 (f) (decision D4): after five ticks, from any state with wheel `w` unmasked, the ring holds the five deltas of
those ticks, the oldest at `idx[w]` and the newest at `(idx[w] + 4) mod 5`. -/
def Obligations.FiveTicksFillTheRing : Prop :=
  ∀ (s : State) (w : Wheel) (t₁ t₂ t₃ t₄ t₅ : Nat), (s.sampler.get w).tickMask = false →
    ∃ t, performAll (ticksOf w [t₁, t₂, t₃, t₄, t₅]) s = .next t ∧
      (t.sampler.get w).buf[(t.sampler.get w).idx] = tickDelta s.cfg (inUs s.cfg t₁) (s.sampler.get w).last ∧
      (t.sampler.get w).buf[(t.sampler.get w).idx + 1] = tickDelta s.cfg (inUs s.cfg t₂) (inUs s.cfg t₁) ∧
      (t.sampler.get w).buf[(t.sampler.get w).idx + 2] = tickDelta s.cfg (inUs s.cfg t₃) (inUs s.cfg t₂) ∧
      (t.sampler.get w).buf[(t.sampler.get w).idx + 3] = tickDelta s.cfg (inUs s.cfg t₄) (inUs s.cfg t₃) ∧
      (t.sampler.get w).buf[(t.sampler.get w).idx + 4] = tickDelta s.cfg (inUs s.cfg t₅) (inUs s.cfg t₄)

/-- R68, the source's property of the sampler: from reset, `k` ticks each `d` apart, the first at `d`, average to
`(k*d) div 5` for `k < 5` and to `d` for `k >= 5`. The first delta is `d` because reset leaves `last = 0`, which is a
choice and not the source's (decision D10, log 8); the exact sum and the delta modulo `2^TW` are decision D4. -/
def Obligations.AverageOfIdenticalTicks : Prop :=
  ∀ (cfg : Cfg) (w : Wheel) (d k : Nat), d < 2 ^ cfg.tw →
    ∃ t, performAll (ticksOf w ((List.range k).map (fun j => (j + 1) * d))) (State.resetWith cfg) = .next t ∧
      (k < 5 → (avg w t).1 = k * d / 5) ∧ (5 ≤ k → (avg w t).1 = d)

/-- R65, R67 (decision D4): AVG is the floor of a fifth of the exact sum, 0 exactly when the sum is below 5, a `uTW`
value when the entries are, and leaves the state as it was when it starts unmasked. -/
def Obligations.AverageIsTheFloorOfTheExactSum : Prop :=
  ∀ (s : State) (w : Wheel),
    let b := (s.sampler.get w).buf
    (avg w s).1 = (b[0] + b[1] + b[2] + b[3] + b[4]) / 5 ∧
    ((avg w s).1 = 0 ↔ b[0] + b[1] + b[2] + b[3] + b[4] < 5) ∧
    ((∀ i : Fin 5, b[i] < 2 ^ s.cfg.tw) → (avg w s).1 < 2 ^ s.cfg.tw) ∧
    ((s.sampler.get w).tickMask = false → (avg w s).2 = s)

/-- R66 (decision D11): whatever edges, ticks and bus transactions fall between AVG.MASK and AVG.UNMASK, the sum is
the one before them, and the state after AVG.UNMASK is the one reached without the mask by the same acts but for the
turns of the masked source, whose edge stays latched. -/
def Obligations.AverageIsAtomicUnderItsMask : Prop :=
  ∀ (s : State) (w : Wheel) (es : List Event), (s.sampler.get w).tickMask = false →
    (∀ e ∈ es, e.isInterrupt = true) →
    ∃ t, performAll es (avgMask w s) = .next t ∧ avgSum w t = avgSum w s ∧
      (avgMask w s).sampler.get w = { s.sampler.get w with tickMask := true } ∧
      performAll (es.filter (fun e => !e.isTickOf w)) s = .next (avgUnmask w t)

/-! ## SETSPEED and the settle hold -/

/-- R78 (decision D12), SETSPEED_COMPLETE: speed, direction and initial PWM are set together, the latch is cleared
with its request kept, the direction and PWM bytes are refreshed, and `next[w]`, the other wheel, every other byte of
the register buffer and the rest of the state stay. -/
def Obligations.SetspeedCompleteSetsTheWheel : Prop :=
  ∀ (s : State) (w : Wheel) (s' : Int) (p : Byte), Memory.wf s.regmap = true →
    (s' = 0 ∧ p = 0 ∨ s' ≠ 0 ∧ ∃ e, s.cfg.initTable[s'.natAbs]? = some e ∧
      (p.toNat : Int) = clamp ((e.toNat : Int) + s.cfg.calibrationOffset.get w) 0 255) →
    ∃ t, setspeedComplete w s' s = .next t ∧
      t.drive = s.drive.set w { speed := s', pwm := p, dir := dirOf s', next := (s.drive.get w).next } ∧
      t.pendSet = s.pendSet.set w { valid := false, s := (s.pendSet.get w).s } ∧
      Memory.read t.regmap (dirOffset w) = dirByte s.cfg.dirCode (dirOf s') ∧
      Memory.read t.regmap (pwmOffset w) = p ∧
      (∀ a, a ≠ dirOffset w → a ≠ pwmOffset w → Memory.read t.regmap a = Memory.read s.regmap a) ∧
      t.cfg = s.cfg ∧ t.sampler = s.sampler ∧ t.mbox = s.mbox ∧ t.mlPhase = s.mlPhase ∧ t.settle = s.settle ∧
      t.inputs = s.inputs ∧ t.reads = s.reads ∧ t.drawn = s.drawn

/-- R75, R76 (decisions D16, D17): in DISPATCH, for the wheel whose turn it is, a clamped request whose sign differs
from that of a non-zero speed forces PWM 0, refreshes the PWM byte and begins a hold at the clock's reading; speed,
direction, `next` and the latch stay. -/
def Obligations.SettlePathForcesPwmZero : Prop :=
  ∀ (s : State) (w : Wheel) (ms : Nat), Memory.wf s.regmap = true →
    s.mlPhase = .dispatch → s.settle.active = false → (s.pendSet.get w).valid = true →
    (w = .right → (s.pendSet.get .left).valid = false) → (s.drive.get w).speed ≠ 0 →
    sgn (clamp (s.pendSet.get w).s (-(s.cfg.maxReverse : Int)) s.cfg.maxForward) ≠ sgn (s.drive.get w).speed →
    ∃ t, perform (.mainLoop ms) s = .next t ∧
      t.drive = s.drive.set w { s.drive.get w with pwm := 0 } ∧
      t.settle = { active := true, w := w, t0 := ms % 2 ^ s.cfg.mw } ∧
      Memory.read t.regmap (dirOffset w) = dirByte s.cfg.dirCode (s.drive.get w).dir ∧
      Memory.read t.regmap (pwmOffset w) = 0 ∧
      (∀ a, a ≠ dirOffset w → a ≠ pwmOffset w → Memory.read t.regmap a = Memory.read s.regmap a) ∧
      t.cfg = s.cfg ∧ t.sampler = s.sampler ∧ t.pendSet = s.pendSet ∧ t.mbox = s.mbox ∧ t.mlPhase = .dispatch ∧
      t.inputs = s.inputs ∧ t.reads = s.reads ∧ t.drawn = s.drawn

/-- R77 (decision D16): SETTLE_WAIT changes nothing while fewer than `settleDelay` milliseconds have elapsed modulo
`2^MW`; otherwise it ends the hold and completes the latched request, clamped, in the same step. -/
def Obligations.SettleWaitHoldsForTheDelay : Prop :=
  ∀ (s : State) (ms : Nat), s.mlPhase = .dispatch → s.settle.active = true →
    (((ms % 2 ^ s.cfg.mw : Nat) - s.settle.t0 : Int) % (2 ^ s.cfg.mw : Nat) < s.cfg.settleDelay →
      perform (.mainLoop ms) s = .next s) ∧
    ((s.cfg.settleDelay : Int) ≤ ((ms % 2 ^ s.cfg.mw : Nat) - s.settle.t0 : Int) % (2 ^ s.cfg.mw : Nat) →
      perform (.mainLoop ms) s =
        setspeedComplete s.settle.w
          (clamp (s.pendSet.get s.settle.w).s (-(s.cfg.maxReverse : Int)) s.cfg.maxForward)
          { s with settle := { s.settle with active := false } })

/-- R74: whenever a main-loop step carries out the `setSpeed` latched for wheel `w`, directly or at the end of a hold,
the stored speed is the clamped request, within the bounds, and 0 for a request in a direction whose bound is 0; and a
request is never rejected: under a legal configuration, from every state that meets the invariant, the main-loop step
has a next state, in which the request is still latched as it was or has been carried out. -/
def Obligations.StoredSpeedIsTheClampedRequest : Prop :=
  ∀ (s : State) (w : Wheel) (ms : Nat), s.mlPhase = .dispatch → (s.pendSet.get w).valid = true →
    (∀ t, perform (.mainLoop ms) s = .next t → (t.pendSet.get w).valid = false →
      (t.drive.get w).speed = clamp (s.pendSet.get w).s (-(s.cfg.maxReverse : Int)) s.cfg.maxForward ∧
      -(s.cfg.maxReverse : Int) ≤ (t.drive.get w).speed ∧ (t.drive.get w).speed ≤ s.cfg.maxForward ∧
      (s.cfg.maxForward = 0 → 0 < (s.pendSet.get w).s → (t.drive.get w).speed = 0) ∧
      (s.cfg.maxReverse = 0 → (s.pendSet.get w).s < 0 → (t.drive.get w).speed = 0)) ∧
    (MachineInv s → s.cfg.legal = true → ∃ t, perform (.mainLoop ms) s = .next t ∧
      (t.pendSet.get w = s.pendSet.get w ∨
        (t.pendSet.get w).valid = false ∧
        (t.drive.get w).speed = clamp (s.pendSet.get w).s (-(s.cfg.maxReverse : Int)) s.cfg.maxForward))

/-- R72 (decision D9), the per-wheel state machine: with `s'` the clamped request, from Stopped, or in the direction
the wheel already has, the state changes in the step itself; every other request forces PWM 0, keeps the state and
begins the hold. -/
def Obligations.StateMachineTakesThePathOfItsTable : Prop :=
  ∀ (s : State) (w : Wheel) (ms : Nat), MachineInv s → s.cfg.legal = true → enabledMainStep s = .setspeedBegin w →
    let s' := clampRequest s.cfg (s.pendSet.get w).s
    ∃ t, perform (.mainLoop ms) s = .next t ∧
      (((s.drive.get w).dir = .stopped ∨ (s.drive.get w).dir = .forward ∧ 0 < s' ∨
          (s.drive.get w).dir = .reverse ∧ s' < 0) →
        (t.drive.get w).dir = dirOf s' ∧ t.settle.active = false ∧ (t.pendSet.get w).valid = false ∧
        (s' = 0 → (t.drive.get w).pwm = 0)) ∧
      (((s.drive.get w).dir = .forward ∧ s' ≤ 0 ∨ (s.drive.get w).dir = .reverse ∧ 0 ≤ s') →
        (t.drive.get w).dir = (s.drive.get w).dir ∧ (t.drive.get w).pwm = 0 ∧ t.settle.active = true ∧
        t.settle.w = w ∧ (t.pendSet.get w).valid = true)

/-- R33 item 4 (decisions D9, D16), except for RESET, of which R139 makes the item untrue (log 13): the direction
changes only from PWM 0, and on a moving wheel only in the SETTLE_WAIT step that ends its own hold after at least
`settleDelay` milliseconds of clock reading. -/
def Obligations.DirectionChangesOnlyAtZeroPwm : Prop :=
  ∀ (s t : State) (e : Event) (w : Wheel), MachineInv s → e ≠ .reset → perform e s = .next t →
    (t.drive.get w).dir ≠ (s.drive.get w).dir →
    (s.drive.get w).pwm = 0 ∧
    ((s.drive.get w).speed ≠ 0 → s.settle.active = true ∧ s.settle.w = w ∧
      ∃ ms, e = .mainLoop ms ∧ settleElapsed s.cfg (inMs s.cfg ms) s.settle.t0 = true)

/-- R77, R82 (3), R148 (decision D16): from any state inside a hold, along any acts without RESET in which no
main-loop turn reads the clock `settleDelay` or more past `t0`, the hold goes on: PWM 0, no wheel trimmed, no command
drained, no byte of the register buffer changed. -/
def Obligations.SettleHoldLastsTheDelay : Prop :=
  ∀ (es : List Event) (s : State), MachineInv s → s.settle.active = true → (∀ e ∈ es, e ≠ .reset) →
    (∀ ms, .mainLoop ms ∈ es → settleElapsed s.cfg (inMs s.cfg ms) s.settle.t0 = false) →
    ∃ t, performAll es s = .next t ∧ t.settle = s.settle ∧ t.drive = s.drive ∧ t.pendSet = s.pendSet ∧
      t.mlPhase = .dispatch ∧ t.regmap = s.regmap ∧ (t.drive.get s.settle.w).pwm = 0

/-! ## LOOP and telemetry -/

/-- R79 (decisions D5, D25), R111, R112: with speed 0 or a reading not past `next[w]`, LOOP only advances the phase. -/
def Obligations.LoopWithFalseGuardOnlyAdvances : Prop :=
  ∀ (s : State) (w : Wheel) (ms : Nat), enabledMainStep s = .loop w →
    ((s.drive.get w).speed = 0 ∨ ms % 2 ^ s.cfg.mw ≤ (s.drive.get w).next) →
    perform (.mainLoop ms) s = .next { s with mlPhase := phaseAfterLoop w }

/-- R80 (decision D20), R122 A3: with a true guard and a ring whose sum is below 5 the cycle is skipped entirely. -/
def Obligations.LoopSkipsWithoutData : Prop :=
  ∀ (s : State) (w : Wheel) (ms : Nat), enabledMainStep s = .loop w → (s.sampler.get w).tickMask = false →
    (s.drive.get w).speed ≠ 0 → (s.drive.get w).next < ms % 2 ^ s.cfg.mw → (avg w s).1 = 0 →
    perform (.mainLoop ms) s = .next { s with mlPhase := phaseAfterLoop w }

/-- R80, R81, R82 (1) (decisions D5, D8, D20): an adjustment cycle lowers the PWM by exactly 1 (floor 0) when the
measurement is below the target, raises it by exactly 1 (ceiling 255) when above, keeps it when equal, sets `next[w]`,
refreshes the wheel's group, and leaves everything else. -/
def Obligations.AdjustmentCycleTrimsByOne : Prop :=
  ∀ (s : State) (w : Wheel) (ms target : Nat), Memory.wf s.regmap = true → enabledMainStep s = .loop w →
    (s.sampler.get w).tickMask = false → (s.drive.get w).speed ≠ 0 → (s.drive.get w).next < ms % 2 ^ s.cfg.mw →
    (avg w s).1 ≠ 0 → s.cfg.targetTable[(s.drive.get w).speed.natAbs]? = some target →
    ∃ t, perform (.mainLoop ms) s = .next t ∧
      ((avg w s).1 < target → (t.drive.get w).pwm.toNat = (s.drive.get w).pwm.toNat - 1) ∧
      (target < (avg w s).1 → (t.drive.get w).pwm.toNat = min ((s.drive.get w).pwm.toNat + 1) 255) ∧
      ((avg w s).1 = target → (t.drive.get w).pwm = (s.drive.get w).pwm) ∧
      (t.drive.get w).next = (ms % 2 ^ s.cfg.mw + s.cfg.adjustDelay) % 2 ^ s.cfg.mw ∧
      t.drive = s.drive.set w { s.drive.get w with pwm := (t.drive.get w).pwm, next := (t.drive.get w).next } ∧
      Memory.read t.regmap (dirOffset w) = dirByte s.cfg.dirCode (s.drive.get w).dir ∧
      Memory.read t.regmap (pwmOffset w) = (t.drive.get w).pwm ∧
      [Memory.read t.regmap (rateOffset w), Memory.read t.regmap (rateOffset w + 1)] =
        rateBytes s.cfg (sat16 (avg w s).1) ∧
      (∀ a, (a < dirOffset w ∨ dirOffset w + 4 ≤ a) → Memory.read t.regmap a = Memory.read s.regmap a) ∧
      t.cfg = s.cfg ∧ t.sampler = s.sampler ∧ t.pendSet = s.pendSet ∧ t.mbox = s.mbox ∧
      t.mlPhase = phaseAfterLoop w ∧ t.settle = s.settle ∧ t.inputs = s.inputs ∧ t.reads = s.reads ∧ t.drawn = s.drawn

/-- R83, R38, R24 (decisions D7, D8): REFRESH_ALL puts the saturated measurement into the tickRate word, low byte at
the lower offset when `REG_LITTLE_ENDIAN` and exchanged otherwise, and the direction and PWM bytes beside it;
REFRESH_DP leaves the word; neither touches the other wheel's group, nor any field of the state but the register
buffer. -/
def Obligations.RefreshWritesTheWheelsGroup : Prop :=
  ∀ (s : State) (w : Wheel) (m : Nat), Memory.wf s.regmap = true →
    let lo := BitVec.ofNat 8 ((if m ≤ 65535 then m else 65535) % 256)
    let hi := BitVec.ofNat 8 ((if m ≤ 65535 then m else 65535) / 256)
    Memory.read (refreshAll w m s).regmap (4 * (if w = .left then 0 else 1) + 2) =
      (if s.cfg.regLittleEndian then lo else hi) ∧
    Memory.read (refreshAll w m s).regmap (4 * (if w = .left then 0 else 1) + 3) =
      (if s.cfg.regLittleEndian then hi else lo) ∧
    (∀ f ∈ [refreshDp w, refreshAll w m],
      Memory.read (f s).regmap (4 * (if w = .left then 0 else 1)) = dirByte s.cfg.dirCode (s.drive.get w).dir ∧
      Memory.read (f s).regmap (4 * (if w = .left then 0 else 1) + 1) = (s.drive.get w).pwm ∧
      (∀ a, (a < dirOffset w ∨ dirOffset w + 4 ≤ a) → Memory.read (f s).regmap a = Memory.read s.regmap a) ∧
      Memory.wf (f s).regmap = true ∧ f s = { s with regmap := (f s).regmap }) ∧
    (∀ a, a ≠ dirOffset w → a ≠ pwmOffset w → Memory.read (refreshDp w s).regmap a = Memory.read s.regmap a)

/-- R83 (decision D8): the tickRate words are written by an adjustment cycle and by RESET, and by nothing else. -/
def Obligations.TickRateWordChangesOnlyInACycle : Prop :=
  ∀ (s t : State) (e : Event) (w : Wheel), MachineInv s → e ≠ .reset → perform e s = .next t →
    (Memory.read t.regmap (rateOffset w) ≠ Memory.read s.regmap (rateOffset w) ∨
      Memory.read t.regmap (rateOffset w + 1) ≠ Memory.read s.regmap (rateOffset w + 1)) →
    ∃ ms, e = .mainLoop ms ∧ enabledMainStep s = .loop w ∧ (s.drive.get w).loopGuard (inMs s.cfg ms) = true ∧
      (avg w s).1 ≠ 0

/-- R106: a host read puts the eight bytes of the register buffer, in offset order, on the output port and changes no
other part of the state. -/
def Obligations.BusReadReturnsTheWholeBuffer : Prop :=
  ∀ s : State, perform .busRead s = .next { s with reads := s.reads ++
    [[Memory.read s.regmap 0, Memory.read s.regmap 1, Memory.read s.regmap 2, Memory.read s.regmap 3,
      Memory.read s.regmap 4, Memory.read s.regmap 5, Memory.read s.regmap 6, Memory.read s.regmap 7]] }

/-- R107, R33 item 7 (decision D17): a snapshot taken in any state that meets the invariant has eight bytes, and for
each wheel shows the code of its direction and its PWM as they are at that moment. -/
def Obligations.SnapshotShowsBothWheels : Prop :=
  ∀ s : State, MachineInv s → ∃ (t : State) (b : List Byte), perform .busRead s = .next t ∧ t.reads = s.reads ++ [b] ∧
    b.length = 8 ∧ ∀ w, b[dirOffset w]? = some (dirByte s.cfg.dirCode (s.drive.get w).dir) ∧
      b[pwmOffset w]? = some (s.drive.get w).pwm

/-! ## The main loop, the agents and the machine -/

/-- R110 to R113 (decision D15): the main-loop step that is enabled in each state, left wheel before right, hold
before either. -/
def Obligations.MainLoopStepInEachPhase : Prop :=
  ∀ s : State,
    (s.mlPhase = .drain → enabledMainStep s = .drain) ∧
    (s.mlPhase = .dispatch → s.settle.active = true → enabledMainStep s = .settleWait) ∧
    (s.mlPhase = .dispatch → s.settle.active = false → (s.pendSet.get .left).valid = true →
      enabledMainStep s = .setspeedBegin .left) ∧
    (s.mlPhase = .dispatch → s.settle.active = false → (s.pendSet.get .left).valid = false →
      (s.pendSet.get .right).valid = true → enabledMainStep s = .setspeedBegin .right) ∧
    (s.mlPhase = .dispatch → s.settle.active = false → (s.pendSet.get .left).valid = false →
      (s.pendSet.get .right).valid = false → enabledMainStep s = .dispatchDone) ∧
    (s.mlPhase = .loopL → enabledMainStep s = .loop .left) ∧
    (s.mlPhase = .loopR → enabledMainStep s = .loop .right) ∧
    (enabledMainStep s = .dispatchDone → ∀ ms, perform (.mainLoop ms) s = .next { s with mlPhase := .loopL })

/-- R109 to R112 (decision D15): the phase goes DRAIN, DISPATCH, LOOP_L, LOOP_R, DRAIN; a main-loop step leaves
DISPATCH only when no latch is set and no hold is active, and LOOP whether or not its guard passed. -/
def Obligations.PhaseGoesRoundInOrder : Prop :=
  ∀ (s t : State) (ms : Nat), perform (.mainLoop ms) s = .next t →
    (s.mlPhase = .drain → t.mlPhase = .dispatch) ∧
    (s.mlPhase = .dispatch → (t.mlPhase = .loopL ∧ s.settle.active = false ∧ (s.pendSet.get .left).valid = false ∧
        (s.pendSet.get .right).valid = false) ∨
      (t.mlPhase = .dispatch ∧ (s.settle.active = true ∨ (s.pendSet.get .left).valid = true ∨
        (s.pendSet.get .right).valid = true))) ∧
    (s.mlPhase = .loopL → t.mlPhase = .loopR) ∧ (s.mlPhase = .loopR → t.mlPhase = .drain)

/-- R127, R34: an encoder edge, a tick or a bus transaction changes no main-loop state and no byte of the register
buffer; edges and ticks change the sampler of their own wheel alone, a write the mailbox alone, a read only the output
port. -/
def Obligations.HandlersLeaveTheMainLoopAlone : Prop :=
  ∀ (s : State) (e : Event), e.isInterrupt = true →
    ∃ t, perform e s = .next t ∧ t.cfg = s.cfg ∧ t.drive = s.drive ∧ t.pendSet = s.pendSet ∧ t.regmap = s.regmap ∧
      t.mlPhase = s.mlPhase ∧ t.settle = s.settle ∧ t.inputs = s.inputs ∧
      (∀ w, e = .edge w ∨ (∃ us, e = .tick w us) →
        t.mbox = s.mbox ∧ t.reads = s.reads ∧ ∀ u, u ≠ w → t.sampler.get u = s.sampler.get u) ∧
      (∀ bytes, e = .busWrite bytes → t.sampler = s.sampler ∧ t.reads = s.reads) ∧
      (e = .busRead → t.sampler = s.sampler ∧ t.mbox = s.mbox)

/-- R34: no main-loop step leaves a trace in a TickSampler or on the read port, and in the mailbox it clears `valid`
at most. -/
def Obligations.MainLoopLeavesTheSamplersAlone : Prop :=
  ∀ (s t : State) (ms : Nat), MachineInv s → perform (.mainLoop ms) s = .next t →
    t.sampler = s.sampler ∧ t.reads = s.reads ∧ t.inputs = s.inputs ∧
    (t.mbox = s.mbox ∨ s.mlPhase = .drain ∧ t.mbox = { s.mbox with valid := false })

/-- R13 ("the two copies never interact"), R120: a main-loop step that serves one wheel leaves the other wheel's
state, its latch and its group of the register buffer as they were. -/
def Obligations.WheelsDoNotInteract : Prop :=
  ∀ (s t : State) (ms : Nat) (w u : Wheel), u ≠ w →
    (enabledMainStep s = .setspeedBegin w ∨ enabledMainStep s = .settleWait ∧ s.settle.w = w ∨
      enabledMainStep s = .loop w) →
    perform (.mainLoop ms) s = .next t →
    t.drive.get u = s.drive.get u ∧ t.pendSet.get u = s.pendSet.get u ∧ t.sampler.get u = s.sampler.get u ∧
    ∀ a, (dirOffset u ≤ a ∧ a < dirOffset u + 4) → Memory.read t.regmap a = Memory.read s.regmap a

/-- R31, R85 (decisions D17, D21): an output of a wheel changes only by RESET, by SETSPEED_BEGIN of that wheel, by the
SETTLE_WAIT that ends its hold and by an adjustment cycle of that wheel, and then to the values of the table of R85. -/
def Obligations.OutputsChangeOnlyInTheirSteps : Prop :=
  ∀ (s t : State) (e : Event) (w : Wheel), perform e s = .next t →
    (pwmOut t w ≠ pwmOut s w ∨ dirOut t w ≠ dirOut s w →
      e = .reset ∨ ∃ ms, e = .mainLoop ms ∧
        (enabledMainStep s = .setspeedBegin w ∨
          enabledMainStep s = .settleWait ∧ s.settle.w = w ∧ t.settle.active = false ∨
          enabledMainStep s = .loop w ∧ (s.drive.get w).loopGuard (inMs s.cfg ms) = true ∧ (avg w s).1 ≠ 0)) ∧
    (e = .reset → pwmOut t w = 0 ∧ dirOut t w = .brake) ∧
    (∀ ms, e = .mainLoop ms → enabledMainStep s = .setspeedBegin w → t.settle.active = true →
      pwmOut t w = 0 ∧ dirOut t w = dirOut s w) ∧
    (∀ ms, e = .mainLoop ms →
      (enabledMainStep s = .setspeedBegin w ∨ enabledMainStep s = .settleWait ∧ s.settle.w = w) →
      t.settle.active = false →
      some (pwmOut t w) = initialPwm s.cfg w (clampRequest s.cfg (s.pendSet.get w).s) ∧
        dirOut t w = driverDir (dirOf (clampRequest s.cfg (s.pendSet.get w).s))) ∧
    (∀ ms, e = .mainLoop ms → enabledMainStep s = .loop w → dirOut t w = dirOut s w ∧
      (pwmOut t w).toNat ≤ (pwmOut s w).toNat + 1 ∧ (pwmOut s w).toNat ≤ (pwmOut t w).toNat + 1)

/-- R88, R89 (LOW for Brake with a single pin: decision D21): the pins in each direction, and HIGH/HIGH never,
whatever the state. -/
def Obligations.PinsFollowTheTruthTables : Prop :=
  ∀ (s : State) (w : Wheel),
    (s.cfg.topology.get w = .singlePinPWM →
      pins s w = .singlePin (s.drive.get w).pwm (if (s.drive.get w).dir = .reverse then .high else .low)) ∧
    (s.cfg.topology.get w = .dualPhasePWM →
      pins s w = .dualPhase (s.drive.get w).pwm
        (if (s.drive.get w).dir = .reverse then .high else .low)
        (if (s.drive.get w).dir = .forward then .high else .low)) ∧
    ∀ v, pins s w ≠ .dualPhase v .high .high

/-- R139, R32: RESET is enabled in every state, also inside a hold, and gives every state element its reset value with
the configuration kept; the outputs are PWM 0 and Brake. The values the source does not state are decision D10 (log
8). That `inputs` and `reads`, which are no state of the WCB, keep their values is the model's choice (DESIGN CHOICE,
log 2), of which R139 does not speak. -/
def Obligations.ResetSetsEveryElement : Prop :=
  ∀ s : State, ∃ t, perform .reset s = .next t ∧ t.cfg = s.cfg ∧
    (∀ w, (∀ i : Fin 5, (t.sampler.get w).buf[i] = 0) ∧ (t.sampler.get w).idx = 0 ∧ (t.sampler.get w).last = 0 ∧
      (t.sampler.get w).tickMask = false ∧ (t.sampler.get w).tickPend = false ∧
      (t.drive.get w).speed = 0 ∧ (t.drive.get w).pwm = 0 ∧ (t.drive.get w).dir = .stopped ∧ (t.drive.get w).next = 0 ∧
      t.pendSet.get w = { valid := false, s := 0 } ∧
      Memory.read t.regmap (dirOffset w) = s.cfg.dirCode.stopped ∧ pwmOut t w = 0 ∧ dirOut t w = .brake) ∧
    (∀ a, a ≠ 0 → a ≠ 4 → Memory.read t.regmap a = 0) ∧ Memory.wf t.regmap = true ∧
    t.mbox = { valid := false, sel := .both, act := .stop, payload := 0 } ∧ t.mlPhase = .drain ∧
    t.settle = { active := false, w := .left, t0 := 0 } ∧
    t.inputs = s.inputs ∧ t.reads = s.reads

/-- R33: the state after reset meets the invariant, under every configuration. -/
def Obligations.ResetStateMeetsTheInvariant : Prop :=
  (∀ cfg : Cfg, MachineInv (State.resetWith cfg)) ∧ MachineInv State.reset

/-- R33: every step of every agent, from every state that meets the invariant, gives a state that meets it. -/
def Obligations.EveryStepKeepsTheInvariant : Prop :=
  ∀ s t : State, MachineInv s → step s = .next t → MachineInv t

/-- R29: no step writes the configuration, RESET included. -/
def Obligations.NoStepChangesTheConfiguration : Prop :=
  (∀ (s t : State) (e : Event), perform e s = .next t → t.cfg = s.cfg) ∧
  (∀ s t : State, step s = .next t → t.cfg = s.cfg)

/-- R121, R113, R36: under a legal configuration every step, from every state that meets the invariant, has a next
state, and so has every act of every agent; no table is read out of range. -/
def Obligations.LegalMachineNeverStops : Prop :=
  ∀ s : State, MachineInv s → s.cfg.legal = true → (∃ t, step s = .next t) ∧ ∀ e : Event, ∃ t, perform e s = .next t

/-- R121 ("no input ... and no reachable state makes any step undefined"), R141: the machine after reset is one that
start-up accepts, and a machine that start-up accepts never stops: neither under any list of acts of any agents, nor in
any number of steps, whatever acts the environment has in store. What `State.reset` is configured with is an opaque
constant that is legal by its type (DESIGN CHOICE, log 1), and that start-up refuses the other configurations is the
model's choice of R121 and U13 (DESIGN CHOICE, log 10). -/
def Obligations.StartedMachineNeverStops : Prop :=
  startUp State.reset.cfg = .next State.reset ∧
  (∀ (cfg : Cfg) (s : State), startUp cfg = .next s → ∀ es : List Event,
    (∃ t, performAll es s = .next t) ∧ ∀ k : Nat, ∃ t, core.run k { s with inputs := es } = .next t) ∧
  (∀ k : Nat, ∃ t, core.run k core.reset = .next t)

/-- Whatever the state and the configuration, a step stops for no reason but a table without the entry it needs, and
from a state that meets the invariant then only when a table does not have the length that R6 asks. That a running
step is refused there is the model's choice (DESIGN CHOICE, log 10): R121 has such a configuration refused before the
machine starts, and by R141 the WCB does not check it. -/
def Obligations.OnlyAShortTableStopsAStep : Prop :=
  ∀ (s : State) (r : Refusal), step s = .refused r → r = .tableTooShort ∧ (MachineInv s → s.cfg.tablesLegal = false)

/-- R6, R7, R141: a configuration is legal exactly when both bounds, both table lengths, the range and strict decrease
of `targetTable`, both offsets and the injectivity of `CMD_CODE` and `DIR_CODE` are as these rules say and `SW` is at
least 9; start-up accepts exactly the legal ones, and then the machine is in its reset state. The bound on `SW` is the
model's reading (DEDUCED, log 12), and that start-up refuses is the model's choice of R121 and U13 (DESIGN CHOICE, log
10). -/
def Obligations.StartUpAcceptsLegalConfigurations : Prop :=
  ∀ cfg : Cfg,
    (cfg.legal = true ↔
      cfg.maxForward ≤ 255 ∧ cfg.maxReverse ≤ 255 ∧
      cfg.initTable.length = max cfg.maxForward cfg.maxReverse + 1 ∧
      cfg.targetTable.length = max cfg.maxForward cfg.maxReverse + 1 ∧
      (∀ t ∈ cfg.targetTable, t < 2 ^ cfg.tw) ∧
      (∀ i a b, cfg.targetTable[i]? = some a → cfg.targetTable[i + 1]? = some b → b < a) ∧
      (∀ w, -255 ≤ cfg.calibrationOffset.get w ∧ cfg.calibrationOffset.get w ≤ 255) ∧
      9 ≤ cfg.sw ∧
      (∀ m n : Mnemonic, cfg.cmdCode.code m = cfg.cmdCode.code n → m = n) ∧
      (∀ d e : Dir, dirByte cfg.dirCode d = dirByte cfg.dirCode e → d = e)) ∧
    (cfg.legal = true → startUp cfg = .next (State.resetWith cfg)) ∧
    (cfg.legal = false → startUp cfg = .refused .illegalConfiguration) ∧
    (cfg.legal = true → ∀ i j : Nat, i < j →
      ∀ a b, cfg.targetTable[i]? = some a → cfg.targetTable[j]? = some b → b < a)
end

