-- ==== Sys2Proof/Laws/Decode.lean ====
section
/-! SUPPORT. The opcode map read both ways, and the parse loop one item at a time. -/

namespace Sys2Proof

/-- Every command is in the listing. -/
theorem Mnemonic.mem_all (m : Mnemonic) : m ∈ Mnemonic.all := by
  cases m <;> decide

/-- The nine bytes are the codes of the nine commands. -/
theorem CmdCode.bytes_eq_map (c : CmdCode) : c.bytes = Mnemonic.all.map c.code := rfl

/-- A byte that is found is the code of the command found. -/
theorem CmdCode.code_of_find {c : CmdCode} {b : Byte} {m : Mnemonic} (h : c.find b = some m) : c.code m = b := by
  have := List.find?_some h
  simpa using this

/-- A byte is not found exactly when it is none of the nine codes (R54). -/
theorem CmdCode.find_eq_none {c : CmdCode} {b : Byte} : c.find b = none ↔ c.bytes.contains b = false := by
  rw [CmdCode.find, List.find?_eq_none, CmdCode.bytes_eq_map]
  simp only [beq_iff_eq, Bool.eq_false_iff, ne_eq, List.contains_iff_mem, List.mem_map, not_exists, not_and]

/-- An injective map gives each command its own code. -/
theorem CmdCode.code_injective {c : CmdCode} (h : c.injective = true) {m n : Mnemonic} (he : c.code m = c.code n) :
    m = n := by
  have h : (Mnemonic.all.map c.code).Nodup := of_decide_eq_true h
  exact List.inj_on_of_nodup_map h m.mem_all n.mem_all he

/-- Under an injective map a command's code is found as that command (R50). -/
theorem CmdCode.find_code {c : CmdCode} (h : c.injective = true) (m : Mnemonic) : c.find (c.code m) = some m := by
  cases hf : c.find (c.code m) with
  | none =>
    rw [CmdCode.find_eq_none, CmdCode.bytes_eq_map] at hf
    have := List.mem_map_of_mem (f := c.code) m.mem_all
    simp only [Bool.eq_false_iff, ne_eq, List.contains_iff_mem] at hf
    exact absurd this hf
  | some n => exact congrArg some (CmdCode.code_injective h (CmdCode.code_of_find hf))

/-- The parse loop is the decoder applied again and again (R91). -/
theorem parse_eq_decode (c : CmdCode) (bytes : List Byte) :
    parse c bytes =
      match decode c bytes with
      | .command i rest => i :: parse c rest
      | .unrecognised _ rest => parse c rest
      | .truncated _ => []
      | .empty => [] := by
  cases bytes with
  | nil => simp [parse, decode]
  | cons b rest =>
    rw [parse]
    simp only [decode]
    cases c.find b with
    | none => rfl
    | some m =>
      dsimp only
      split_ifs
      · cases rest <;> rfl
      · rfl

@[simp] theorem parse_nil (c : CmdCode) : parse c [] = [] := by simp [parse]

/-- A byte that names no command is skipped (R54). -/
theorem parse_unrecognised {c : CmdCode} {b : Byte} (h : c.bytes.contains b = false) (rest : List Byte) :
    parse c (b :: rest) = parse c rest := by
  rw [parse, CmdCode.find_eq_none.mpr h]

end Sys2Proof
end

