-- ==== Sys2Proof/Laws/Memory.lean ====
section
/-! SUPPORT. The register buffer: read after write, and every write keeps the canonical form. -/

namespace Sys2Proof.Machine

@[simp] theorem Memory.read_nil (a : Nat) : Memory.read [] a = Memory.unlisted := rfl

/-- An offset below every listed one is unlisted. -/
theorem Memory.read_of_lt_canonicalFrom (m : Memory) :
    ∀ {lo a : Nat}, Memory.canonicalFrom lo m = true → a < lo → Memory.read m a = Memory.unlisted := by
  induction m with
  | nil => intros; rfl
  | cons c rest ih =>
    obtain ⟨k, v⟩ := c
    intro lo a hm ha
    simp only [Memory.canonicalFrom, Bool.and_eq_true, decide_eq_true_eq] at hm
    obtain ⟨⟨⟨hlo, -⟩, -⟩, hrest⟩ := hm
    have hne : k ≠ a := by omega
    simp only [Memory.read, if_neg hne]
    exact ih hrest (by omega)

/-- Read after write at the same offset gives the byte written. -/
theorem Memory.read_write_same (m : Memory) (a : Nat) (b : Byte) :
    ∀ {lo : Nat}, Memory.canonicalFrom lo m = true → Memory.read (Memory.write m a b) a = b := by
  induction m with
  | nil =>
    intro lo _
    unfold Memory.write
    split
    · next hb => simp [hb]
    · simp [Memory.read]
  | cons c rest ih =>
    obtain ⟨k, v⟩ := c
    intro lo hm
    have hc := hm
    simp only [Memory.canonicalFrom, Bool.and_eq_true, decide_eq_true_eq] at hm
    obtain ⟨-, hrest⟩ := hm
    simp only [Memory.write]
    split
    · next hak =>
      split
      · next hb =>
        have hka : k ≠ a := by omega
        rw [hb, Memory.read, if_neg hka]
        exact Memory.read_of_lt_canonicalFrom rest hrest (by omega)
      · simp [Memory.read]
    · split
      · next hak =>
        split
        · next hb =>
          rw [hb]
          exact Memory.read_of_lt_canonicalFrom rest hrest (by omega)
        · simp [Memory.read]
      · next hak =>
        have hka : k ≠ a := fun h => hak h.symm
        simp only [Memory.read, if_neg hka]
        exact ih hrest

/-- A write leaves every other offset alone. -/
theorem Memory.read_write_of_ne (m : Memory) {a x : Nat} (b : Byte) (h : x ≠ a) :
    Memory.read (Memory.write m a b) x = Memory.read m x := by
  induction m with
  | nil =>
    unfold Memory.write
    split
    · rfl
    · simp [Memory.read, Ne.symm h]
  | cons c rest ih =>
    obtain ⟨k, v⟩ := c
    simp only [Memory.write]
    split
    · split
      · rfl
      · simp [Memory.read, Ne.symm h]
    · split
      · next hak =>
        subst hak
        split <;> simp [Memory.read, Ne.symm h]
      · simp only [Memory.read, ih]

/-- A lower bound on the offsets may be weakened. -/
theorem Memory.canonicalFrom_mono (m : Memory) {lo lo' : Nat} (h : lo ≤ lo')
    (hm : Memory.canonicalFrom lo' m = true) : Memory.canonicalFrom lo m = true := by
  cases m with
  | nil => rfl
  | cons c rest =>
    obtain ⟨k, v⟩ := c
    simp only [Memory.canonicalFrom, Bool.and_eq_true, decide_eq_true_eq] at hm ⊢
    exact ⟨⟨⟨by omega, hm.1.1.2⟩, hm.1.2⟩, hm.2⟩

/-- A write at an offset of the buffer keeps the canonical form. -/
theorem Memory.canonicalFrom_write (m : Memory) (a : Nat) (b : Byte) (ha : a < regLen) :
    ∀ {lo : Nat}, lo ≤ a → Memory.canonicalFrom lo m = true → Memory.canonicalFrom lo (Memory.write m a b) = true := by
  induction m with
  | nil =>
    intro lo hlo _
    unfold Memory.write
    split
    · rfl
    · next hb => simp [Memory.canonicalFrom, hlo, ha, hb]
  | cons c rest ih =>
    obtain ⟨k, v⟩ := c
    intro lo hlo hm
    have hc := hm
    simp only [Memory.canonicalFrom, Bool.and_eq_true, decide_eq_true_eq] at hm
    obtain ⟨⟨⟨hk, hk8⟩, hv⟩, hrest⟩ := hm
    simp only [Memory.write]
    split
    · next hak =>
      split
      · exact hc
      · next hb =>
        simp only [Memory.canonicalFrom, Bool.and_eq_true, decide_eq_true_eq]
        exact ⟨⟨⟨hlo, ha⟩, hb⟩, ⟨⟨by omega, hk8⟩, hv⟩, hrest⟩
    · split
      · next hak =>
        split
        · exact Memory.canonicalFrom_mono rest (by omega) hrest
        · next hb =>
          simp only [Memory.canonicalFrom, Bool.and_eq_true, decide_eq_true_eq]
          exact ⟨⟨⟨hlo, ha⟩, hb⟩, by subst hak; exact hrest⟩
      · next h1 h2 =>
        simp only [Memory.canonicalFrom, Bool.and_eq_true, decide_eq_true_eq]
        exact ⟨⟨⟨hk, hk8⟩, hv⟩, ih (by omega) hrest⟩

/-- Every write inside the buffer keeps the canonical form. -/
theorem Memory.wf_write {m : Memory} (hm : Memory.wf m = true) (a : Nat) (b : Byte) (ha : a < regLen) :
    Memory.wf (Memory.write m a b) = true :=
  Memory.canonicalFrom_write m a b ha (Nat.zero_le a) hm

/-- Read after write in a buffer in canonical form. -/
theorem Memory.read_write {m : Memory} (hm : Memory.wf m = true) (a x : Nat) (b : Byte) :
    Memory.read (Memory.write m a b) x = if x = a then b else Memory.read m x := by
  split
  · next h => subst h; exact Memory.read_write_same m x b hm
  · next h => exact Memory.read_write_of_ne m b h

/-- `RegWrite` inside the buffer keeps the canonical form. -/
theorem Memory.wf_writeBytes (bs : List Byte) :
    ∀ {m : Memory} (_ : Memory.wf m = true) (k : Nat) (_ : k + bs.length ≤ regLen),
      Memory.wf (Memory.writeBytes m k bs) = true := by
  induction bs with
  | nil => intro m hm k _; exact hm
  | cons b rest ih =>
    intro m hm k hk
    simp only [List.length_cons] at hk
    exact ih (Memory.wf_write hm k b (by omega)) (k + 1) (by omega)

/-- `RegWrite` leaves every offset outside the bytes it writes alone. -/
theorem Memory.read_writeBytes_outside (bs : List Byte) :
    ∀ (m : Memory) (k x : Nat) (_ : x < k ∨ k + bs.length ≤ x),
      Memory.read (Memory.writeBytes m k bs) x = Memory.read m x := by
  induction bs with
  | nil => intros; rfl
  | cons b rest ih =>
    intro m k x hx
    simp only [List.length_cons] at hx
    rw [Memory.writeBytes, ih _ _ _ (by omega), Memory.read_write_of_ne m b (by omega)]

/-- `RegWrite` of two bytes, read back at any offset. -/
theorem Memory.read_writeBytes_two {m : Memory} (hm : Memory.wf m = true) (k x : Nat) (b c : Byte) (hk : k < regLen) :
    Memory.read (Memory.writeBytes m k [b, c]) x =
      if x = k then b else if x = k + 1 then c else Memory.read m x := by
  simp only [Memory.writeBytes]
  rw [Memory.read_write (Memory.wf_write hm k b hk), Memory.read_write hm]
  split_ifs <;> first | rfl | omega

/-- A snapshot of `n` bytes has `n` bytes. -/
@[simp] theorem Memory.length_readBytes (m : Memory) (n : Nat) :
    ∀ k, (Memory.readBytes m k n).length = n := by
  induction n with
  | zero => intro k; rfl
  | succ n ih => intro k; simp [Memory.readBytes, ih]

end Sys2Proof.Machine
end

