-- ==== Sys2Proof/Laws/Operands.lean ====
section
/-! SUPPORT. One lemma or two for each computed value: its range, and what it is in each case. -/

namespace Sys2Proof.Machine

/-- `clamp` lands between its bounds. -/
theorem clamp_bounds {x lo hi : Int} (h : lo ≤ hi) : lo ≤ clamp x lo hi ∧ clamp x lo hi ≤ hi := by
  unfold clamp
  split_ifs <;> omega

/-- A value between the bounds is left alone. -/
theorem clamp_of_mem {x lo hi : Int} (h₁ : lo ≤ x) (h₂ : x ≤ hi) : clamp x lo hi = x := by
  unfold clamp
  split_ifs <;> omega

/-- A clamped request is within the configured bounds (R74). -/
theorem clampRequest_bounds (cfg : Cfg) (s : Int) :
    -(cfg.maxReverse : Int) ≤ clampRequest cfg s ∧ clampRequest cfg s ≤ cfg.maxForward :=
  clamp_bounds (by omega)

/-- The magnitude of a clamped request indexes both tables (R36). -/
theorem natAbs_clampRequest_le (cfg : Cfg) (s : Int) : (clampRequest cfg s).natAbs ≤ cfg.maxSpeed := by
  have h := clampRequest_bounds cfg s
  unfold Cfg.maxSpeed
  omega

/-- Speeds of equal sign have the same direction (R11). -/
theorem dirOf_eq_of_sgn_eq {a b : Int} (h : sgn a = sgn b) : dirOf a = dirOf b := by
  unfold sgn at h
  unfold dirOf
  split_ifs at h ⊢ <;> first | rfl | omega

@[simp] theorem dirOf_zero : dirOf 0 = .stopped := rfl

theorem dirOf_eq_stopped {x : Int} : dirOf x = .stopped ↔ x = 0 := by
  unfold dirOf
  split_ifs <;> simp_all

theorem dirOf_eq_forward {x : Int} : dirOf x = .forward ↔ 0 < x := by
  unfold dirOf
  split_ifs <;> simp_all

theorem dirOf_eq_reverse {x : Int} : dirOf x = .reverse ↔ x < 0 := by
  unfold dirOf
  split_ifs <;> simp only [false_iff, true_iff] <;> omega

/-- The settle path is for a moving wheel whose request differs in sign (R75). -/
theorem settleNeeded_eq_true {s' speed : Int} :
    settleNeeded s' speed = true ↔ sgn s' ≠ sgn speed ∧ speed ≠ 0 := by
  simp [settleNeeded]

theorem settleNeeded_eq_false {s' speed : Int} :
    settleNeeded s' speed = false ↔ sgn s' = sgn speed ∨ speed = 0 := by
  simp [settleNeeded]
  tauto

/-- A stop sets PWM 0 without a table lookup (R78). -/
@[simp] theorem initialPwm_zero (cfg : Cfg) (w : Wheel) : initialPwm cfg w 0 = some 0 := rfl

/-- Under a table that holds the magnitude, there is an initial PWM (R36). -/
theorem initialPwm_isSome {cfg : Cfg} {w : Wheel} {s' : Int} (h : s'.natAbs < cfg.initTable.length) :
    ∃ p, initialPwm cfg w s' = some p := by
  unfold initialPwm
  split_ifs
  · exact ⟨_, rfl⟩
  · rw [List.getElem?_eq_getElem h]
    exact ⟨_, rfl⟩

/-- Without an initial PWM the table lacks the magnitude. -/
theorem length_le_of_initialPwm_none {cfg : Cfg} {w : Wheel} {s' : Int} (h : initialPwm cfg w s' = none) :
    cfg.initTable.length ≤ s'.natAbs := by
  by_contra hlt
  obtain ⟨p, hp⟩ := initialPwm_isSome (cfg := cfg) (w := w) (s' := s') (by omega)
  simp [hp] at h

/-- A difference modulo `2^n` is an `n`-bit value. -/
theorem subMod_lt (n a b : Nat) : subMod n a b < 2 ^ n := by
  unfold subMod
  have h : (0 : Int) < (2 ^ n : Nat) := by positivity
  have h₁ := Int.emod_nonneg ((a : Int) - b) h.ne'
  have h₂ := Int.emod_lt_of_pos ((a : Int) - b) h
  omega

/-- The difference modulo `2^n` as an integer. -/
theorem subMod_cast (n a b : Nat) : (subMod n a b : Int) = ((a : Int) - b) % (2 ^ n : Nat) := by
  unfold subMod
  exact Int.toNat_of_nonneg (Int.emod_nonneg _ (by positivity))

/-- A clock reading is a value of the port's width (R30). -/
theorem inUs_lt (cfg : Cfg) (us : Nat) : inUs cfg us < 2 ^ cfg.tw := Nat.mod_lt _ (by positivity)

theorem inMs_lt (cfg : Cfg) (ms : Nat) : inMs cfg ms < 2 ^ cfg.mw := Nat.mod_lt _ (by positivity)

theorem nextAdjust_lt (cfg : Cfg) (now : Nat) : nextAdjust cfg now < 2 ^ cfg.mw := Nat.mod_lt _ (by positivity)

/-- A drained request is in −255..+255 (R104). -/
theorem speedOf_bounds (a : Act) (p : Byte) : -255 ≤ speedOf a p ∧ speedOf a p ≤ 255 := by
  have h := p.isLt
  cases a <;> simp only [speedOf] <;> omega

/-- The average is 0 exactly when the sum is below 5 (R67). -/
theorem ringAverage_eq_zero {buf : Vector Nat 5} : ringAverage buf = 0 ↔ ringSum buf < 5 := by
  unfold ringAverage
  omega

/-- Below the target the PWM goes one down, floor 0 (R80, R81). -/
theorem trimPwm_below {m target : Nat} (h : m < target) (p : Byte) :
    (trimPwm m target p).toNat = p.toNat - 1 := by
  unfold trimPwm
  rw [if_pos h]
  split_ifs with hp
  · bv_omega
  · simp; omega

/-- Above the target the PWM goes one up, ceiling 255 (R80, R81). -/
theorem trimPwm_above {m target : Nat} (h : target < m) (p : Byte) :
    (trimPwm m target p).toNat = min (p.toNat + 1) 255 := by
  have hlt := p.isLt
  unfold trimPwm
  rw [if_neg (by omega), if_pos h]
  split_ifs with hp
  · bv_omega
  · simp; omega

/-- On target the PWM is unchanged (R80). -/
@[simp] theorem trimPwm_self (m : Nat) (p : Byte) : trimPwm m m p = p := by
  simp [trimPwm]

end Sys2Proof.Machine
end

