-- ==== Sys2Proof/Laws/State.lean ====
section
/-! SUPPORT. What each update of State leaves in each field, so that no later proof unfolds a record update. -/

namespace Sys2Proof

@[simp] theorem PerWheel.get_set_same {α : Type} (x : PerWheel α) (w : Wheel) (v : α) : (x.set w v).get w = v := by
  cases w <;> rfl

theorem PerWheel.get_set_of_ne {α : Type} (x : PerWheel α) {w u : Wheel} (v : α) (h : u ≠ w) :
    (x.set w v).get u = x.get u := by
  cases w <;> cases u <;> first | rfl | exact absurd rfl h

@[simp] theorem PerWheel.set_get_self {α : Type} (x : PerWheel α) (w : Wheel) : x.set w (x.get w) = x := by
  cases w <;> rfl

@[simp] theorem PerWheel.set_set {α : Type} (x : PerWheel α) (w : Wheel) (v v' : α) :
    (x.set w v).set w v' = x.set w v' := by
  cases w <;> rfl

@[simp] theorem PerWheel.get_set_left_right {α : Type} (x : PerWheel α) (v : α) :
    (x.set .left v).get .right = x.get .right := rfl

@[simp] theorem PerWheel.get_set_right_left {α : Type} (x : PerWheel α) (v : α) :
    (x.set .right v).get .left = x.get .left := rfl

/-- Two values for the wheels are equal when both wheels' are. -/
theorem PerWheel.ext_get {α : Type} {x y : PerWheel α} (h : ∀ w, x.get w = y.get w) : x = y := by
  have hl := h .left
  have hr := h .right
  cases x
  cases y
  simp_all [PerWheel.get]

namespace Machine

@[simp] theorem State.setSampler_cfg (s : State) (w : Wheel) (x : Sampler) : (s.setSampler w x).cfg = s.cfg := rfl
@[simp] theorem State.setSampler_sampler (s : State) (w : Wheel) (x : Sampler) : (s.setSampler w x).sampler = s.sampler.set w x := rfl
@[simp] theorem State.setSampler_drive (s : State) (w : Wheel) (x : Sampler) : (s.setSampler w x).drive = s.drive := rfl
@[simp] theorem State.setSampler_pendSet (s : State) (w : Wheel) (x : Sampler) : (s.setSampler w x).pendSet = s.pendSet := rfl
@[simp] theorem State.setSampler_regmap (s : State) (w : Wheel) (x : Sampler) : (s.setSampler w x).regmap = s.regmap := rfl
@[simp] theorem State.setSampler_mbox (s : State) (w : Wheel) (x : Sampler) : (s.setSampler w x).mbox = s.mbox := rfl
@[simp] theorem State.setSampler_mlPhase (s : State) (w : Wheel) (x : Sampler) : (s.setSampler w x).mlPhase = s.mlPhase := rfl
@[simp] theorem State.setSampler_settle (s : State) (w : Wheel) (x : Sampler) : (s.setSampler w x).settle = s.settle := rfl
@[simp] theorem State.setSampler_inputs (s : State) (w : Wheel) (x : Sampler) : (s.setSampler w x).inputs = s.inputs := rfl
@[simp] theorem State.setSampler_reads (s : State) (w : Wheel) (x : Sampler) : (s.setSampler w x).reads = s.reads := rfl
@[simp] theorem State.setSampler_drawn (s : State) (w : Wheel) (x : Sampler) : (s.setSampler w x).drawn = s.drawn := rfl

@[simp] theorem State.setDrive_cfg (s : State) (w : Wheel) (d : Drive) : (s.setDrive w d).cfg = s.cfg := rfl
@[simp] theorem State.setDrive_sampler (s : State) (w : Wheel) (d : Drive) : (s.setDrive w d).sampler = s.sampler := rfl
@[simp] theorem State.setDrive_drive (s : State) (w : Wheel) (d : Drive) : (s.setDrive w d).drive = s.drive.set w d := rfl
@[simp] theorem State.setDrive_pendSet (s : State) (w : Wheel) (d : Drive) : (s.setDrive w d).pendSet = s.pendSet := rfl
@[simp] theorem State.setDrive_regmap (s : State) (w : Wheel) (d : Drive) : (s.setDrive w d).regmap = s.regmap := rfl
@[simp] theorem State.setDrive_mbox (s : State) (w : Wheel) (d : Drive) : (s.setDrive w d).mbox = s.mbox := rfl
@[simp] theorem State.setDrive_mlPhase (s : State) (w : Wheel) (d : Drive) : (s.setDrive w d).mlPhase = s.mlPhase := rfl
@[simp] theorem State.setDrive_settle (s : State) (w : Wheel) (d : Drive) : (s.setDrive w d).settle = s.settle := rfl
@[simp] theorem State.setDrive_inputs (s : State) (w : Wheel) (d : Drive) : (s.setDrive w d).inputs = s.inputs := rfl
@[simp] theorem State.setDrive_reads (s : State) (w : Wheel) (d : Drive) : (s.setDrive w d).reads = s.reads := rfl
@[simp] theorem State.setDrive_drawn (s : State) (w : Wheel) (d : Drive) : (s.setDrive w d).drawn = s.drawn := rfl

@[simp] theorem State.setPend_cfg (s : State) (w : Wheel) (l : Latch) : (s.setPend w l).cfg = s.cfg := rfl
@[simp] theorem State.setPend_sampler (s : State) (w : Wheel) (l : Latch) : (s.setPend w l).sampler = s.sampler := rfl
@[simp] theorem State.setPend_drive (s : State) (w : Wheel) (l : Latch) : (s.setPend w l).drive = s.drive := rfl
@[simp] theorem State.setPend_pendSet (s : State) (w : Wheel) (l : Latch) : (s.setPend w l).pendSet = s.pendSet.set w l := rfl
@[simp] theorem State.setPend_regmap (s : State) (w : Wheel) (l : Latch) : (s.setPend w l).regmap = s.regmap := rfl
@[simp] theorem State.setPend_mbox (s : State) (w : Wheel) (l : Latch) : (s.setPend w l).mbox = s.mbox := rfl
@[simp] theorem State.setPend_mlPhase (s : State) (w : Wheel) (l : Latch) : (s.setPend w l).mlPhase = s.mlPhase := rfl
@[simp] theorem State.setPend_settle (s : State) (w : Wheel) (l : Latch) : (s.setPend w l).settle = s.settle := rfl
@[simp] theorem State.setPend_inputs (s : State) (w : Wheel) (l : Latch) : (s.setPend w l).inputs = s.inputs := rfl
@[simp] theorem State.setPend_reads (s : State) (w : Wheel) (l : Latch) : (s.setPend w l).reads = s.reads := rfl
@[simp] theorem State.setPend_drawn (s : State) (w : Wheel) (l : Latch) : (s.setPend w l).drawn = s.drawn := rfl

@[simp] theorem State.setMbox_cfg (s : State) (m : Mailbox) : (s.setMbox m).cfg = s.cfg := rfl
@[simp] theorem State.setMbox_sampler (s : State) (m : Mailbox) : (s.setMbox m).sampler = s.sampler := rfl
@[simp] theorem State.setMbox_drive (s : State) (m : Mailbox) : (s.setMbox m).drive = s.drive := rfl
@[simp] theorem State.setMbox_pendSet (s : State) (m : Mailbox) : (s.setMbox m).pendSet = s.pendSet := rfl
@[simp] theorem State.setMbox_regmap (s : State) (m : Mailbox) : (s.setMbox m).regmap = s.regmap := rfl
@[simp] theorem State.setMbox_mbox (s : State) (m : Mailbox) : (s.setMbox m).mbox = m := rfl
@[simp] theorem State.setMbox_mlPhase (s : State) (m : Mailbox) : (s.setMbox m).mlPhase = s.mlPhase := rfl
@[simp] theorem State.setMbox_settle (s : State) (m : Mailbox) : (s.setMbox m).settle = s.settle := rfl
@[simp] theorem State.setMbox_inputs (s : State) (m : Mailbox) : (s.setMbox m).inputs = s.inputs := rfl
@[simp] theorem State.setMbox_reads (s : State) (m : Mailbox) : (s.setMbox m).reads = s.reads := rfl
@[simp] theorem State.setMbox_drawn (s : State) (m : Mailbox) : (s.setMbox m).drawn = s.drawn := rfl

@[simp] theorem State.setPhase_cfg (s : State) (p : Phase) : (s.setPhase p).cfg = s.cfg := rfl
@[simp] theorem State.setPhase_sampler (s : State) (p : Phase) : (s.setPhase p).sampler = s.sampler := rfl
@[simp] theorem State.setPhase_drive (s : State) (p : Phase) : (s.setPhase p).drive = s.drive := rfl
@[simp] theorem State.setPhase_pendSet (s : State) (p : Phase) : (s.setPhase p).pendSet = s.pendSet := rfl
@[simp] theorem State.setPhase_regmap (s : State) (p : Phase) : (s.setPhase p).regmap = s.regmap := rfl
@[simp] theorem State.setPhase_mbox (s : State) (p : Phase) : (s.setPhase p).mbox = s.mbox := rfl
@[simp] theorem State.setPhase_mlPhase (s : State) (p : Phase) : (s.setPhase p).mlPhase = p := rfl
@[simp] theorem State.setPhase_settle (s : State) (p : Phase) : (s.setPhase p).settle = s.settle := rfl
@[simp] theorem State.setPhase_inputs (s : State) (p : Phase) : (s.setPhase p).inputs = s.inputs := rfl
@[simp] theorem State.setPhase_reads (s : State) (p : Phase) : (s.setPhase p).reads = s.reads := rfl
@[simp] theorem State.setPhase_drawn (s : State) (p : Phase) : (s.setPhase p).drawn = s.drawn := rfl

@[simp] theorem State.setSettle_cfg (s : State) (h : Settle) : (s.setSettle h).cfg = s.cfg := rfl
@[simp] theorem State.setSettle_sampler (s : State) (h : Settle) : (s.setSettle h).sampler = s.sampler := rfl
@[simp] theorem State.setSettle_drive (s : State) (h : Settle) : (s.setSettle h).drive = s.drive := rfl
@[simp] theorem State.setSettle_pendSet (s : State) (h : Settle) : (s.setSettle h).pendSet = s.pendSet := rfl
@[simp] theorem State.setSettle_regmap (s : State) (h : Settle) : (s.setSettle h).regmap = s.regmap := rfl
@[simp] theorem State.setSettle_mbox (s : State) (h : Settle) : (s.setSettle h).mbox = s.mbox := rfl
@[simp] theorem State.setSettle_mlPhase (s : State) (h : Settle) : (s.setSettle h).mlPhase = s.mlPhase := rfl
@[simp] theorem State.setSettle_settle (s : State) (h : Settle) : (s.setSettle h).settle = h := rfl
@[simp] theorem State.setSettle_inputs (s : State) (h : Settle) : (s.setSettle h).inputs = s.inputs := rfl
@[simp] theorem State.setSettle_reads (s : State) (h : Settle) : (s.setSettle h).reads = s.reads := rfl
@[simp] theorem State.setSettle_drawn (s : State) (h : Settle) : (s.setSettle h).drawn = s.drawn := rfl

@[simp] theorem State.setRegmap_cfg (s : State) (m : Memory) : (s.setRegmap m).cfg = s.cfg := rfl
@[simp] theorem State.setRegmap_sampler (s : State) (m : Memory) : (s.setRegmap m).sampler = s.sampler := rfl
@[simp] theorem State.setRegmap_drive (s : State) (m : Memory) : (s.setRegmap m).drive = s.drive := rfl
@[simp] theorem State.setRegmap_pendSet (s : State) (m : Memory) : (s.setRegmap m).pendSet = s.pendSet := rfl
@[simp] theorem State.setRegmap_regmap (s : State) (m : Memory) : (s.setRegmap m).regmap = m := rfl
@[simp] theorem State.setRegmap_mbox (s : State) (m : Memory) : (s.setRegmap m).mbox = s.mbox := rfl
@[simp] theorem State.setRegmap_mlPhase (s : State) (m : Memory) : (s.setRegmap m).mlPhase = s.mlPhase := rfl
@[simp] theorem State.setRegmap_settle (s : State) (m : Memory) : (s.setRegmap m).settle = s.settle := rfl
@[simp] theorem State.setRegmap_inputs (s : State) (m : Memory) : (s.setRegmap m).inputs = s.inputs := rfl
@[simp] theorem State.setRegmap_reads (s : State) (m : Memory) : (s.setRegmap m).reads = s.reads := rfl
@[simp] theorem State.setRegmap_drawn (s : State) (m : Memory) : (s.setRegmap m).drawn = s.drawn := rfl

/-- Writing back what stands there changes nothing. -/
@[simp] theorem State.setSampler_self (s : State) (w : Wheel) : s.setSampler w (s.sampler.get w) = s := by
  cases s; simp [State.setSampler]

/-- Writing back what stands there changes nothing. -/
@[simp] theorem State.setDrive_self (s : State) (w : Wheel) : s.setDrive w (s.drive.get w) = s := by
  cases s; simp [State.setDrive]

/-- Writing back what stands there changes nothing. -/
@[simp] theorem State.setPend_self (s : State) (w : Wheel) : s.setPend w (s.pendSet.get w) = s := by
  cases s; simp [State.setPend]

end Machine

end Sys2Proof
end

