-- ==== Sys2Proof/Laws/Ops.lean ====
section
/-! SUPPORT. What each shared operation does to each field, and to each byte of the register buffer. -/

namespace Sys2Proof.Machine

@[simp] theorem andThen_next (s : State) (f) : andThen (.next s) f = f s := rfl

@[simp] theorem andThen_refused (r : Refusal) (f) : andThen (.refused r) f = .refused r := rfl

/-- A sequence has a next state exactly when both parts have one. -/
theorem andThen_eq_next {o : Host.Outcome State Fault Refusal} {f} {t : State} :
    andThen o f = .next t ↔ ∃ s, o = .next s ∧ f s = .next t := by
  cases o with
  | next s => simp [andThen]
  | fault r => cases r
  | refused r => simp [andThen]

theorem andThen_eq_refused {o : Host.Outcome State Fault Refusal} {f} {r : Refusal} :
    andThen o f = .refused r ↔ o = .refused r ∨ ∃ s, o = .next s ∧ f s = .refused r := by
  cases o with
  | next s => simp [andThen]
  | fault r => cases r
  | refused r => simp [andThen]

@[simp] theorem refreshDp_cfg (w : Wheel) (s : State) :
    (refreshDp w s).cfg = s.cfg := rfl
@[simp] theorem refreshDp_sampler (w : Wheel) (s : State) :
    (refreshDp w s).sampler = s.sampler := rfl
@[simp] theorem refreshDp_drive (w : Wheel) (s : State) :
    (refreshDp w s).drive = s.drive := rfl
@[simp] theorem refreshDp_pendSet (w : Wheel) (s : State) :
    (refreshDp w s).pendSet = s.pendSet := rfl
@[simp] theorem refreshDp_mbox (w : Wheel) (s : State) :
    (refreshDp w s).mbox = s.mbox := rfl
@[simp] theorem refreshDp_mlPhase (w : Wheel) (s : State) :
    (refreshDp w s).mlPhase = s.mlPhase := rfl
@[simp] theorem refreshDp_settle (w : Wheel) (s : State) :
    (refreshDp w s).settle = s.settle := rfl
@[simp] theorem refreshDp_inputs (w : Wheel) (s : State) :
    (refreshDp w s).inputs = s.inputs := rfl
@[simp] theorem refreshDp_reads (w : Wheel) (s : State) :
    (refreshDp w s).reads = s.reads := rfl
@[simp] theorem refreshDp_drawn (w : Wheel) (s : State) :
    (refreshDp w s).drawn = s.drawn := rfl

@[simp] theorem refreshAll_cfg (w : Wheel) (m : Nat) (s : State) :
    (refreshAll w m s).cfg = s.cfg := rfl
@[simp] theorem refreshAll_sampler (w : Wheel) (m : Nat) (s : State) :
    (refreshAll w m s).sampler = s.sampler := rfl
@[simp] theorem refreshAll_drive (w : Wheel) (m : Nat) (s : State) :
    (refreshAll w m s).drive = s.drive := rfl
@[simp] theorem refreshAll_pendSet (w : Wheel) (m : Nat) (s : State) :
    (refreshAll w m s).pendSet = s.pendSet := rfl
@[simp] theorem refreshAll_mbox (w : Wheel) (m : Nat) (s : State) :
    (refreshAll w m s).mbox = s.mbox := rfl
@[simp] theorem refreshAll_mlPhase (w : Wheel) (m : Nat) (s : State) :
    (refreshAll w m s).mlPhase = s.mlPhase := rfl
@[simp] theorem refreshAll_settle (w : Wheel) (m : Nat) (s : State) :
    (refreshAll w m s).settle = s.settle := rfl
@[simp] theorem refreshAll_inputs (w : Wheel) (m : Nat) (s : State) :
    (refreshAll w m s).inputs = s.inputs := rfl
@[simp] theorem refreshAll_reads (w : Wheel) (m : Nat) (s : State) :
    (refreshAll w m s).reads = s.reads := rfl
@[simp] theorem refreshAll_drawn (w : Wheel) (m : Nat) (s : State) :
    (refreshAll w m s).drawn = s.drawn := rfl

@[simp] theorem mboxWrite_cfg (sel : Sel) (act : Act) (p : Byte) (s : State) :
    (mboxWrite sel act p s).cfg = s.cfg := rfl
@[simp] theorem mboxWrite_sampler (sel : Sel) (act : Act) (p : Byte) (s : State) :
    (mboxWrite sel act p s).sampler = s.sampler := rfl
@[simp] theorem mboxWrite_drive (sel : Sel) (act : Act) (p : Byte) (s : State) :
    (mboxWrite sel act p s).drive = s.drive := rfl
@[simp] theorem mboxWrite_pendSet (sel : Sel) (act : Act) (p : Byte) (s : State) :
    (mboxWrite sel act p s).pendSet = s.pendSet := rfl
@[simp] theorem mboxWrite_regmap (sel : Sel) (act : Act) (p : Byte) (s : State) :
    (mboxWrite sel act p s).regmap = s.regmap := rfl
@[simp] theorem mboxWrite_mbox (sel : Sel) (act : Act) (p : Byte) (s : State) :
    (mboxWrite sel act p s).mbox = { valid := true, sel := sel, act := act, payload := p } := rfl
@[simp] theorem mboxWrite_mlPhase (sel : Sel) (act : Act) (p : Byte) (s : State) :
    (mboxWrite sel act p s).mlPhase = s.mlPhase := rfl
@[simp] theorem mboxWrite_settle (sel : Sel) (act : Act) (p : Byte) (s : State) :
    (mboxWrite sel act p s).settle = s.settle := rfl
@[simp] theorem mboxWrite_inputs (sel : Sel) (act : Act) (p : Byte) (s : State) :
    (mboxWrite sel act p s).inputs = s.inputs := rfl
@[simp] theorem mboxWrite_reads (sel : Sel) (act : Act) (p : Byte) (s : State) :
    (mboxWrite sel act p s).reads = s.reads := rfl
@[simp] theorem mboxWrite_drawn (sel : Sel) (act : Act) (p : Byte) (s : State) :
    (mboxWrite sel act p s).drawn = s.drawn := rfl

@[simp] theorem latchRequest_cfg (w : Wheel) (v : Int) (s : State) :
    (latchRequest w v s).cfg = s.cfg := rfl
@[simp] theorem latchRequest_sampler (w : Wheel) (v : Int) (s : State) :
    (latchRequest w v s).sampler = s.sampler := rfl
@[simp] theorem latchRequest_drive (w : Wheel) (v : Int) (s : State) :
    (latchRequest w v s).drive = s.drive := rfl
@[simp] theorem latchRequest_pendSet (w : Wheel) (v : Int) (s : State) :
    (latchRequest w v s).pendSet = s.pendSet.set w { valid := true, s := v } := rfl
@[simp] theorem latchRequest_regmap (w : Wheel) (v : Int) (s : State) :
    (latchRequest w v s).regmap = s.regmap := rfl
@[simp] theorem latchRequest_mbox (w : Wheel) (v : Int) (s : State) :
    (latchRequest w v s).mbox = s.mbox := rfl
@[simp] theorem latchRequest_mlPhase (w : Wheel) (v : Int) (s : State) :
    (latchRequest w v s).mlPhase = s.mlPhase := rfl
@[simp] theorem latchRequest_settle (w : Wheel) (v : Int) (s : State) :
    (latchRequest w v s).settle = s.settle := rfl
@[simp] theorem latchRequest_inputs (w : Wheel) (v : Int) (s : State) :
    (latchRequest w v s).inputs = s.inputs := rfl
@[simp] theorem latchRequest_reads (w : Wheel) (v : Int) (s : State) :
    (latchRequest w v s).reads = s.reads := rfl
@[simp] theorem latchRequest_drawn (w : Wheel) (v : Int) (s : State) :
    (latchRequest w v s).drawn = s.drawn := rfl

@[simp] theorem clearPend_cfg (w : Wheel) (s : State) :
    (clearPend w s).cfg = s.cfg := rfl
@[simp] theorem clearPend_sampler (w : Wheel) (s : State) :
    (clearPend w s).sampler = s.sampler := rfl
@[simp] theorem clearPend_drive (w : Wheel) (s : State) :
    (clearPend w s).drive = s.drive := rfl
@[simp] theorem clearPend_pendSet (w : Wheel) (s : State) :
    (clearPend w s).pendSet = s.pendSet.set w { valid := false, s := (s.pendSet.get w).s } := rfl
@[simp] theorem clearPend_regmap (w : Wheel) (s : State) :
    (clearPend w s).regmap = s.regmap := rfl
@[simp] theorem clearPend_mbox (w : Wheel) (s : State) :
    (clearPend w s).mbox = s.mbox := rfl
@[simp] theorem clearPend_mlPhase (w : Wheel) (s : State) :
    (clearPend w s).mlPhase = s.mlPhase := rfl
@[simp] theorem clearPend_settle (w : Wheel) (s : State) :
    (clearPend w s).settle = s.settle := rfl
@[simp] theorem clearPend_inputs (w : Wheel) (s : State) :
    (clearPend w s).inputs = s.inputs := rfl
@[simp] theorem clearPend_reads (w : Wheel) (s : State) :
    (clearPend w s).reads = s.reads := rfl
@[simp] theorem clearPend_drawn (w : Wheel) (s : State) :
    (clearPend w s).drawn = s.drawn := rfl


/-- A wheel's group lies inside the buffer. -/
theorem dirOffset_add_lt (w : Wheel) : dirOffset w + 3 < regLen := by
  cases w <;> decide

/-- `REFRESH_DP(w)` byte by byte (R83). -/
theorem read_refreshDp {s : State} (hm : Memory.wf s.regmap = true) (w : Wheel) (a : Nat) :
    Memory.read (refreshDp w s).regmap a =
      if a = dirOffset w then dirByte s.cfg.dirCode (s.drive.get w).dir
      else if a = pwmOffset w then (s.drive.get w).pwm else Memory.read s.regmap a :=
  Memory.read_writeBytes_two hm _ _ _ _ (by have := dirOffset_add_lt w; omega)

/-- `REFRESH_DP(w)` keeps the buffer's canonical form. -/
theorem wf_refreshDp {s : State} (hm : Memory.wf s.regmap = true) (w : Wheel) :
    Memory.wf (refreshDp w s).regmap = true :=
  Memory.wf_writeBytes _ hm _ (by cases w <;> simp [dirOffset, regLen])

/-- The tickRate word is two bytes (R23). -/
@[simp] theorem length_rateBytes (cfg : Cfg) (t : Nat) : (rateBytes cfg t).length = 2 := by
  unfold rateBytes
  cases cfg.regLittleEndian <;> rfl

/-- The tickRate word as its byte at the lower and at the higher offset (R38). -/
theorem rateBytes_eq (cfg : Cfg) (t : Nat) :
    rateBytes cfg t =
      [if cfg.regLittleEndian then BitVec.ofNat 8 t else BitVec.ofNat 8 (t / 256),
       if cfg.regLittleEndian then BitVec.ofNat 8 (t / 256) else BitVec.ofNat 8 t] := by
  unfold rateBytes
  cases cfg.regLittleEndian <;> rfl

/-- `REFRESH_ALL(w, m)` keeps the buffer's canonical form. -/
theorem wf_refreshAll {s : State} (hm : Memory.wf s.regmap = true) (w : Wheel) (m : Nat) :
    Memory.wf (refreshAll w m s).regmap = true := by
  refine Memory.wf_writeBytes _ (wf_refreshDp hm w) _ ?_
  rw [length_rateBytes]
  cases w <;> decide

/-- `REFRESH_ALL(w, m)` byte by byte (R83). -/
theorem read_refreshAll {s : State} (hm : Memory.wf s.regmap = true) (w : Wheel) (m a : Nat) :
    Memory.read (refreshAll w m s).regmap a =
      if a = rateOffset w then
        (if s.cfg.regLittleEndian then BitVec.ofNat 8 (sat16 m) else BitVec.ofNat 8 (sat16 m / 256))
      else if a = rateOffset w + 1 then
        (if s.cfg.regLittleEndian then BitVec.ofNat 8 (sat16 m / 256) else BitVec.ofNat 8 (sat16 m))
      else if a = dirOffset w then dirByte s.cfg.dirCode (s.drive.get w).dir
      else if a = pwmOffset w then (s.drive.get w).pwm else Memory.read s.regmap a := by
  have hk : rateOffset w < regLen := by cases w <;> decide
  rw [refreshAll]
  simp only [State.setRegmap_regmap, rateBytes_eq]
  rw [Memory.read_writeBytes_two (wf_refreshDp hm w) _ _ _ _ hk, read_refreshDp hm]

end Sys2Proof.Machine
end

