-- ==== Sys2Proof/Laws/Commands.lean ====
section
/-! SUPPORT. A command, and so a whole write transaction, always completes and touches the mailbox alone (R91, R102). -/

namespace Sys2Proof.Machine

/-- Writing the mailbox twice is writing it once: last write wins (R102). -/
@[simp] theorem State.setMbox_setMbox (s : State) (m m' : Mailbox) : (s.setMbox m).setMbox m' = s.setMbox m' := rfl

@[simp] theorem State.setMbox_self (s : State) : s.setMbox s.mbox = s := rfl

/-- Every command completes by one write of the mailbox, and what it writes depends on the command alone. -/
theorem exec_is_mbox_write (i : Instr) : ∃ m : Mailbox, ∀ s, exec i s = .next (s.setMbox m) := by
  cases i <;> exact ⟨_, fun _ => rfl⟩

/-- The commands of a transaction complete, and touch the mailbox alone. -/
theorem runCommands_is_mbox_write (is : List Instr) :
    ∀ s, ∃ m : Mailbox, runCommands is s = .next (s.setMbox m) := by
  induction is with
  | nil => exact fun s => ⟨s.mbox, rfl⟩
  | cons i rest ih =>
    intro s
    obtain ⟨m, hm⟩ := exec_is_mbox_write i
    obtain ⟨m', hm'⟩ := ih (s.setMbox m)
    exact ⟨m', by rw [runCommands, hm, andThen_next, hm', State.setMbox_setMbox]⟩

/-- A write transaction completes, and touches the mailbox alone. -/
theorem busWrite_is_mbox_write (bytes : List Byte) (s : State) :
    ∃ m : Mailbox, busWrite bytes s = .next (s.setMbox m) :=
  runCommands_is_mbox_write _ s

/-- Two runs of commands one after the other. -/
theorem runCommands_append (is js : List Instr) :
    ∀ s, runCommands (is ++ js) s = andThen (runCommands is s) (runCommands js) := by
  induction is with
  | nil => intro s; rfl
  | cons i rest ih =>
    intro s
    obtain ⟨m, hm⟩ := exec_is_mbox_write i
    simp only [List.cons_append, runCommands, hm, andThen_next, ih]

/-- A transaction that parses to one command runs it. -/
theorem busWrite_of_parse_singleton {bytes : List Byte} {s : State} {i : Instr}
    (h : parse s.cfg.cmdCode bytes = [i]) : busWrite bytes s = exec i s := by
  obtain ⟨m, hm⟩ := exec_is_mbox_write i
  rw [busWrite, h, runCommands, hm, andThen_next, runCommands]

end Sys2Proof.Machine
end

