-- ==== Sys2Proof/Laws/TickSampler.lean ====
section
/-! SUPPORT. EDGE, TICK and AVG: what each does to the sampler of its wheel, and that it touches nothing else. -/

namespace Sys2Proof.Machine

/-- EDGE replaces the sampler of its wheel and nothing else (R62). -/
theorem edge_is_sampler_write (w : Wheel) (s : State) :
    edge w s = s.setSampler w { s.sampler.get w with tickPend := true } := rfl

/-- A taken TICK replaces the sampler of its wheel and nothing else (R63). -/
theorem tick_of_enabled {w : Wheel} {s : State} (h : (s.sampler.get w).tickEnabled = true) (us : Nat) :
    tick w us s = s.setSampler w ((s.sampler.get w).record s.cfg (inUs s.cfg us)) := if_pos h

theorem tick_of_disabled {w : Wheel} {s : State} (h : (s.sampler.get w).tickEnabled = false) (us : Nat) :
    tick w us s = s := if_neg (by simp [h])

/-- Whether taken or not, a turn of the encoder interrupt touches its own sampler alone. -/
theorem tick_is_sampler_write (w : Wheel) (us : Nat) (s : State) :
    ∃ x, tick w us s = s.setSampler w x := by
  unfold tick
  split_ifs
  · exact ⟨_, rfl⟩
  · exact ⟨s.sampler.get w, by simp⟩

@[simp] theorem Sampler.record_last (cfg : Cfg) (x : Sampler) (now : Nat) : (x.record cfg now).last = now := rfl
@[simp] theorem Sampler.record_idx (cfg : Cfg) (x : Sampler) (now : Nat) : (x.record cfg now).idx = x.idx + 1 := rfl
@[simp] theorem Sampler.record_tickMask (cfg : Cfg) (x : Sampler) (now : Nat) :
    (x.record cfg now).tickMask = x.tickMask := rfl
@[simp] theorem Sampler.record_tickPend (cfg : Cfg) (x : Sampler) (now : Nat) :
    (x.record cfg now).tickPend = false := rfl

/-- The ring after a TICK: the delta at the write index, every other entry as before (R63). -/
theorem Sampler.record_buf (cfg : Cfg) (x : Sampler) (now : Nat) (i : Fin 5) :
    (x.record cfg now).buf[i] = if i = x.idx then tickDelta cfg now x.last else x.buf[i] := by
  show (x.buf.set x.idx.val (tickDelta cfg now x.last) x.idx.isLt)[i.val] = _
  rw [Vector.getElem_set]
  by_cases h : i = x.idx
  · simp [h]
  · rw [if_neg (fun h' => h (Fin.ext h'.symm)), if_neg h]
    rfl

/-- AVG gives the average and lifts the mask (R65). -/
theorem avg_eq (w : Wheel) (s : State) :
    avg w s = (ringAverage (s.sampler.get w).buf, s.setSampler w { s.sampler.get w with tickMask := false }) := by
  simp only [avg, avgSum, avgMask, avgUnmask, State.setSampler, PerWheel.get_set_same, PerWheel.set_set]

/-- On an unmasked wheel AVG leaves the state as it was (R40, R66). -/
theorem avg_of_unmasked {w : Wheel} {s : State} (h : (s.sampler.get w).tickMask = false) :
    avg w s = (ringAverage (s.sampler.get w).buf, s) := by
  rw [avg_eq]
  congr 1
  have : ({ s.sampler.get w with tickMask := false } : Sampler) = s.sampler.get w := by rw [← h]
  rw [this, State.setSampler_self]

end Sys2Proof.Machine
end

