-- ==== Sys2Proof/Laws/SpeedTrim.lean ====
section
/-! SUPPORT. The SpeedController's operations: the cases of each, said once. -/

namespace Sys2Proof.Machine

/-- SETSPEED_COMPLETE with the initial PWM `p` (R78), as one update of the state. -/
def completed (w : Wheel) (s' : Int) (p : Byte) (s : State) : State :=
  clearPend w (refreshDp w (s.setDrive w { s.drive.get w with speed := s', dir := dirOf s', pwm := p }))

/-- SETSPEED_COMPLETE goes on exactly with an initial PWM. -/
theorem setspeedComplete_eq_next {w : Wheel} {s' : Int} {s t : State} :
    setspeedComplete w s' s = .next t ↔ ∃ p, initialPwm s.cfg w s' = some p ∧ t = completed w s' p s := by
  unfold setspeedComplete completed
  cases initialPwm s.cfg w s' with
  | none => simp
  | some p => simp [eq_comm]

/-- SETSPEED_COMPLETE stops exactly without one. -/
theorem setspeedComplete_eq_refused {w : Wheel} {s' : Int} {s : State} {r : Refusal} :
    setspeedComplete w s' s = .refused r ↔ initialPwm s.cfg w s' = none ∧ r = .tableTooShort := by
  unfold setspeedComplete
  cases initialPwm s.cfg w s' with
  | none => simp [eq_comm]
  | some p => simp

theorem setspeedComplete_of_some {w : Wheel} {s' : Int} {s : State} {p : Byte}
    (h : initialPwm s.cfg w s' = some p) : setspeedComplete w s' s = .next (completed w s' p s) :=
  setspeedComplete_eq_next.mpr ⟨p, h, rfl⟩

@[simp] theorem completed_cfg (w : Wheel) (s' : Int) (p : Byte) (s : State) :
    (completed w s' p s).cfg = s.cfg := rfl
@[simp] theorem completed_sampler (w : Wheel) (s' : Int) (p : Byte) (s : State) :
    (completed w s' p s).sampler = s.sampler := rfl
@[simp] theorem completed_drive (w : Wheel) (s' : Int) (p : Byte) (s : State) :
    (completed w s' p s).drive = s.drive.set w { s.drive.get w with speed := s', dir := dirOf s', pwm := p } := by
  simp [completed]
@[simp] theorem completed_pendSet (w : Wheel) (s' : Int) (p : Byte) (s : State) :
    (completed w s' p s).pendSet = s.pendSet.set w { valid := false, s := (s.pendSet.get w).s } := by
  simp [completed]
@[simp] theorem completed_mbox (w : Wheel) (s' : Int) (p : Byte) (s : State) :
    (completed w s' p s).mbox = s.mbox := rfl
@[simp] theorem completed_mlPhase (w : Wheel) (s' : Int) (p : Byte) (s : State) :
    (completed w s' p s).mlPhase = s.mlPhase := rfl
@[simp] theorem completed_settle (w : Wheel) (s' : Int) (p : Byte) (s : State) :
    (completed w s' p s).settle = s.settle := rfl
@[simp] theorem completed_inputs (w : Wheel) (s' : Int) (p : Byte) (s : State) :
    (completed w s' p s).inputs = s.inputs := rfl
@[simp] theorem completed_reads (w : Wheel) (s' : Int) (p : Byte) (s : State) :
    (completed w s' p s).reads = s.reads := rfl
@[simp] theorem completed_drawn (w : Wheel) (s' : Int) (p : Byte) (s : State) :
    (completed w s' p s).drawn = s.drawn := rfl

@[simp] theorem settleBegin_cfg (w : Wheel) (ms : Nat) (s : State) :
    (settleBegin w ms s).cfg = s.cfg := rfl
@[simp] theorem settleBegin_sampler (w : Wheel) (ms : Nat) (s : State) :
    (settleBegin w ms s).sampler = s.sampler := rfl
@[simp] theorem settleBegin_drive (w : Wheel) (ms : Nat) (s : State) :
    (settleBegin w ms s).drive = s.drive.set w { s.drive.get w with pwm := 0 } := by
  simp [settleBegin]
@[simp] theorem settleBegin_pendSet (w : Wheel) (ms : Nat) (s : State) :
    (settleBegin w ms s).pendSet = s.pendSet := rfl
@[simp] theorem settleBegin_mbox (w : Wheel) (ms : Nat) (s : State) :
    (settleBegin w ms s).mbox = s.mbox := rfl
@[simp] theorem settleBegin_mlPhase (w : Wheel) (ms : Nat) (s : State) :
    (settleBegin w ms s).mlPhase = s.mlPhase := rfl
@[simp] theorem settleBegin_settle (w : Wheel) (ms : Nat) (s : State) :
    (settleBegin w ms s).settle = { active := true, w := w, t0 := inMs s.cfg ms } := by
  simp [settleBegin]
@[simp] theorem settleBegin_inputs (w : Wheel) (ms : Nat) (s : State) :
    (settleBegin w ms s).inputs = s.inputs := rfl
@[simp] theorem settleBegin_reads (w : Wheel) (ms : Nat) (s : State) :
    (settleBegin w ms s).reads = s.reads := rfl
@[simp] theorem settleBegin_drawn (w : Wheel) (ms : Nat) (s : State) :
    (settleBegin w ms s).drawn = s.drawn := rfl

@[simp] theorem adjust_cfg (w : Wheel) (now m target : Nat) (s : State) :
    (adjust w now m target s).cfg = s.cfg := rfl
@[simp] theorem adjust_sampler (w : Wheel) (now m target : Nat) (s : State) :
    (adjust w now m target s).sampler = s.sampler := rfl
@[simp] theorem adjust_drive (w : Wheel) (now m target : Nat) (s : State) :
    (adjust w now m target s).drive = s.drive.set w { s.drive.get w with
      pwm := trimPwm m target (s.drive.get w).pwm, next := nextAdjust s.cfg now } := by
  simp [adjust]
@[simp] theorem adjust_pendSet (w : Wheel) (now m target : Nat) (s : State) :
    (adjust w now m target s).pendSet = s.pendSet := rfl
@[simp] theorem adjust_mbox (w : Wheel) (now m target : Nat) (s : State) :
    (adjust w now m target s).mbox = s.mbox := rfl
@[simp] theorem adjust_mlPhase (w : Wheel) (now m target : Nat) (s : State) :
    (adjust w now m target s).mlPhase = s.mlPhase := rfl
@[simp] theorem adjust_settle (w : Wheel) (now m target : Nat) (s : State) :
    (adjust w now m target s).settle = s.settle := rfl
@[simp] theorem adjust_inputs (w : Wheel) (now m target : Nat) (s : State) :
    (adjust w now m target s).inputs = s.inputs := rfl
@[simp] theorem adjust_reads (w : Wheel) (now m target : Nat) (s : State) :
    (adjust w now m target s).reads = s.reads := rfl
@[simp] theorem adjust_drawn (w : Wheel) (now m target : Nat) (s : State) :
    (adjust w now m target s).drawn = s.drawn := rfl


/-- The register buffer after SETSPEED_COMPLETE, byte by byte. -/
theorem read_completed {s : State} (hm : Memory.wf s.regmap = true) (w : Wheel) (s' : Int) (p : Byte) (a : Nat) :
    Memory.read (completed w s' p s).regmap a =
      if a = dirOffset w then dirByte s.cfg.dirCode (dirOf s')
      else if a = pwmOffset w then p else Memory.read s.regmap a := by
  rw [completed, clearPend_regmap, read_refreshDp (by exact hm)]
  simp

theorem wf_completed {s : State} (hm : Memory.wf s.regmap = true) (w : Wheel) (s' : Int) (p : Byte) :
    Memory.wf (completed w s' p s).regmap = true := by
  rw [completed, clearPend_regmap]
  exact wf_refreshDp (by exact hm) w

/-- The register buffer when a hold begins, byte by byte (R76). -/
theorem read_settleBegin {s : State} (hm : Memory.wf s.regmap = true) (w : Wheel) (ms a : Nat) :
    Memory.read (settleBegin w ms s).regmap a =
      if a = dirOffset w then dirByte s.cfg.dirCode (s.drive.get w).dir
      else if a = pwmOffset w then 0 else Memory.read s.regmap a := by
  rw [settleBegin, State.setSettle_regmap, read_refreshDp (by exact hm)]
  simp

theorem wf_settleBegin {s : State} (hm : Memory.wf s.regmap = true) (w : Wheel) (ms : Nat) :
    Memory.wf (settleBegin w ms s).regmap = true := by
  rw [settleBegin, State.setSettle_regmap]
  exact wf_refreshDp (by exact hm) w

/-- SETSPEED_BEGIN begins a hold or completes (R75). -/
theorem setspeedBegin_eq_next {w : Wheel} {ms : Nat} {s t : State} :
    setspeedBegin w ms s = .next t ↔
      (settleNeeded (clampRequest s.cfg (s.pendSet.get w).s) (s.drive.get w).speed = true ∧ t = settleBegin w ms s) ∨
      (settleNeeded (clampRequest s.cfg (s.pendSet.get w).s) (s.drive.get w).speed = false ∧
        ∃ p, initialPwm s.cfg w (clampRequest s.cfg (s.pendSet.get w).s) = some p ∧
          t = completed w (clampRequest s.cfg (s.pendSet.get w).s) p s) := by
  unfold setspeedBegin
  cases settleNeeded (clampRequest s.cfg (s.pendSet.get w).s) (s.drive.get w).speed with
  | true => simp [eq_comm]
  | false => simp [setspeedComplete_eq_next]

/-- SETTLE_WAIT holds or completes (R77). -/
theorem settleWait_eq_next {ms : Nat} {s t : State} :
    settleWait ms s = .next t ↔
      (settleElapsed s.cfg (inMs s.cfg ms) s.settle.t0 = false ∧ t = s) ∨
      (settleElapsed s.cfg (inMs s.cfg ms) s.settle.t0 = true ∧
        ∃ p, initialPwm s.cfg s.settle.w (clampRequest s.cfg (s.pendSet.get s.settle.w).s) = some p ∧
          t = completed s.settle.w (clampRequest s.cfg (s.pendSet.get s.settle.w).s) p
            (s.setSettle { s.settle with active := false })) := by
  unfold settleWait
  cases settleElapsed s.cfg (inMs s.cfg ms) s.settle.t0 with
  | false => simp [eq_comm]
  | true => simp [setspeedComplete_eq_next]

/-- The register buffer after an adjustment cycle, byte by byte (R80, R83). -/
theorem read_adjust {s : State} (hm : Memory.wf s.regmap = true) (w : Wheel) (now m target a : Nat) :
    Memory.read (adjust w now m target s).regmap a =
      if a = rateOffset w then
        (if s.cfg.regLittleEndian then BitVec.ofNat 8 (sat16 m) else BitVec.ofNat 8 (sat16 m / 256))
      else if a = rateOffset w + 1 then
        (if s.cfg.regLittleEndian then BitVec.ofNat 8 (sat16 m / 256) else BitVec.ofNat 8 (sat16 m))
      else if a = dirOffset w then dirByte s.cfg.dirCode (s.drive.get w).dir
      else if a = pwmOffset w then trimPwm m target (s.drive.get w).pwm else Memory.read s.regmap a := by
  rw [adjust, read_refreshAll (by exact hm)]
  simp only [State.setDrive_drive, PerWheel.get_set_same]
  rfl

theorem wf_adjust {s : State} (hm : Memory.wf s.regmap = true) (w : Wheel) (now m target : Nat) :
    Memory.wf (adjust w now m target s).regmap = true :=
  wf_refreshAll (by exact hm) w m

/-- LOOP on an unmasked wheel: nothing, a skipped cycle or an adjustment cycle (R79, R80). -/
theorem loop_eq_next {w : Wheel} {ms : Nat} {s t : State} (hu : (s.sampler.get w).tickMask = false) :
    loop w ms s = .next t ↔
      (((s.drive.get w).loopGuard (inMs s.cfg ms) = false ∨ ringAverage (s.sampler.get w).buf = 0) ∧ t = s) ∨
      ((s.drive.get w).loopGuard (inMs s.cfg ms) = true ∧ ringAverage (s.sampler.get w).buf ≠ 0 ∧
        ∃ target, targetInterval s.cfg (s.drive.get w).speed = some target ∧
          t = adjust w (inMs s.cfg ms) (ringAverage (s.sampler.get w).buf) target s) := by
  unfold loop loopBody
  cases (s.drive.get w).loopGuard (inMs s.cfg ms) with
  | false => simp [eq_comm]
  | true =>
    simp only [if_true, avg_of_unmasked hu]
    by_cases hm : ringAverage (s.sampler.get w).buf = 0
    · simp [hm, eq_comm]
    · rw [if_neg hm]
      cases targetInterval s.cfg (s.drive.get w).speed with
      | none => simp [hm]
      | some target => simp [hm, eq_comm]

end Sys2Proof.Machine
end

