-- ==== Sys2Proof/Laws/MainLoop.lean ====
section
/-! SUPPORT. The main-loop step and an act of any agent: what each can do, said once. -/

namespace Sys2Proof.Machine

@[simp] theorem drain_cfg (s : State) : (drain s).cfg = s.cfg := by
  unfold drain latchFrom
  cases s.mbox.valid <;> cases s.mbox.sel <;> rfl
@[simp] theorem drain_sampler (s : State) : (drain s).sampler = s.sampler := by
  unfold drain latchFrom
  cases s.mbox.valid <;> cases s.mbox.sel <;> rfl
@[simp] theorem drain_drive (s : State) : (drain s).drive = s.drive := by
  unfold drain latchFrom
  cases s.mbox.valid <;> cases s.mbox.sel <;> rfl
@[simp] theorem drain_regmap (s : State) : (drain s).regmap = s.regmap := by
  unfold drain latchFrom
  cases s.mbox.valid <;> cases s.mbox.sel <;> rfl
@[simp] theorem drain_settle (s : State) : (drain s).settle = s.settle := by
  unfold drain latchFrom
  cases s.mbox.valid <;> cases s.mbox.sel <;> rfl
@[simp] theorem drain_inputs (s : State) : (drain s).inputs = s.inputs := by
  unfold drain latchFrom
  cases s.mbox.valid <;> cases s.mbox.sel <;> rfl
@[simp] theorem drain_reads (s : State) : (drain s).reads = s.reads := by
  unfold drain latchFrom
  cases s.mbox.valid <;> cases s.mbox.sel <;> rfl
@[simp] theorem drain_drawn (s : State) : (drain s).drawn = s.drawn := by
  unfold drain latchFrom
  cases s.mbox.valid <;> cases s.mbox.sel <;> rfl
@[simp] theorem drain_mlPhase (s : State) : (drain s).mlPhase = .dispatch := rfl

/-- The latches after DRAIN (R103). -/
theorem drain_pendSet_get (s : State) (w : Wheel) :
    (drain s).pendSet.get w =
      if s.mbox.valid = true ∧ s.mbox.sel.addresses w = true then
        { valid := true, s := speedOf s.mbox.act s.mbox.payload }
      else s.pendSet.get w := by
  unfold drain latchFrom
  cases hv : s.mbox.valid <;> cases hs : s.mbox.sel <;> cases w <;> rfl

/-- DRAIN empties the mailbox and keeps its other fields (R103). -/
@[simp] theorem drain_mbox (s : State) : (drain s).mbox = { s.mbox with valid := false } := by
  unfold drain latchFrom
  rcases hb : s.mbox with ⟨v, sel, a, p⟩
  cases v <;> cases sel <;> simp [hb, Sel.addresses]

/-- The phase selects the step (R110 to R112). -/
theorem enabledMainStep_eq_drain {s : State} : enabledMainStep s = .drain ↔ s.mlPhase = .drain := by
  unfold enabledMainStep
  cases s.mlPhase <;> simp
  split_ifs <;> simp

theorem enabledMainStep_eq_settleWait {s : State} :
    enabledMainStep s = .settleWait ↔ s.mlPhase = .dispatch ∧ s.settle.active = true := by
  unfold enabledMainStep
  cases s.mlPhase <;> simp
  split_ifs <;> simp_all

theorem enabledMainStep_eq_setspeedBegin {s : State} {w : Wheel} :
    enabledMainStep s = .setspeedBegin w ↔
      s.mlPhase = .dispatch ∧ s.settle.active = false ∧ (s.pendSet.get w).valid = true ∧
        (w = .right → (s.pendSet.get .left).valid = false) := by
  unfold enabledMainStep
  cases s.mlPhase <;> simp
  cases w <;> split_ifs <;> simp_all

theorem enabledMainStep_eq_dispatchDone {s : State} :
    enabledMainStep s = .dispatchDone ↔
      s.mlPhase = .dispatch ∧ s.settle.active = false ∧ (s.pendSet.get .left).valid = false ∧
        (s.pendSet.get .right).valid = false := by
  unfold enabledMainStep
  cases s.mlPhase <;> simp
  split_ifs <;> simp_all

/-- The phase in which LOOP(w) runs (R111, R112). -/
def loopPhase : Wheel → Phase
  | .left => .loopL
  | .right => .loopR

theorem enabledMainStep_eq_loop {s : State} {w : Wheel} : enabledMainStep s = .loop w ↔ s.mlPhase = loopPhase w := by
  unfold enabledMainStep
  cases s.mlPhase <;> cases w <;> simp [loopPhase] <;> split_ifs <;> simp

/-- LOOP with its phase advance goes on exactly when LOOP does. -/
theorem loopStep_eq_next {w : Wheel} {ms : Nat} {s t : State} :
    loopStep w ms s = .next t ↔ ∃ u, loop w ms s = .next u ∧ t = u.setPhase (phaseAfterLoop w) := by
  unfold loopStep
  rw [andThen_eq_next]
  simp [eq_comm]

/-- An interrupt handler or an edge always completes, and changes samplers, the mailbox and the read port at most (R127). -/
theorem perform_interrupt {e : Event} (h : e.isInterrupt = true) (s : State) :
    ∃ sampler mbox reads, perform e s = .next { s with sampler := sampler, mbox := mbox, reads := reads } := by
  cases e with
  | reset => cases h
  | mainLoop ms => cases h
  | edge w => exact ⟨_, s.mbox, s.reads, rfl⟩
  | tick w us =>
    obtain ⟨x, hx⟩ := tick_is_sampler_write w us s
    exact ⟨s.sampler.set w x, s.mbox, s.reads, by rw [perform, hx]; rfl⟩
  | busWrite bytes =>
    obtain ⟨m, hm⟩ := busWrite_is_mbox_write bytes s
    exact ⟨s.sampler, m, s.reads, by rw [perform, hm]; rfl⟩
  | busRead => exact ⟨s.sampler, s.mbox, _, rfl⟩

/-! The main-loop step by the step that is enabled (R113). -/

theorem mainStep_of_drain {s : State} (h : enabledMainStep s = .drain) (ms : Nat) :
    mainStep ms s = .next (drain s) := by
  simp only [mainStep, h]

theorem mainStep_of_settleWait {s : State} (h : enabledMainStep s = .settleWait) (ms : Nat) :
    mainStep ms s = settleWait ms s := by
  simp only [mainStep, h]

theorem mainStep_of_setspeedBegin {s : State} {w : Wheel} (h : enabledMainStep s = .setspeedBegin w) (ms : Nat) :
    mainStep ms s = setspeedBegin w ms s := by
  simp only [mainStep, h]

theorem mainStep_of_dispatchDone {s : State} (h : enabledMainStep s = .dispatchDone) (ms : Nat) :
    mainStep ms s = .next (dispatchDone s) := by
  simp only [mainStep, h]

theorem mainStep_of_loop {s : State} {w : Wheel} (h : enabledMainStep s = .loop w) (ms : Nat) :
    mainStep ms s = loopStep w ms s := by
  simp only [mainStep, h]

/-- Everything a main-loop turn can do when it has a next state. -/
theorem mainStep_cases {ms : Nat} {s t : State} (h : mainStep ms s = .next t) :
    (enabledMainStep s = .drain ∧ t = drain s) ∨
    (enabledMainStep s = .settleWait ∧ settleWait ms s = .next t) ∨
    (∃ w, enabledMainStep s = .setspeedBegin w ∧ setspeedBegin w ms s = .next t) ∨
    (enabledMainStep s = .dispatchDone ∧ t = dispatchDone s) ∨
    (∃ w u, enabledMainStep s = .loop w ∧ loop w ms s = .next u ∧ t = u.setPhase (phaseAfterLoop w)) := by
  cases he : enabledMainStep s with
  | drain =>
    rw [mainStep_of_drain he] at h
    cases h
    exact .inl ⟨rfl, rfl⟩
  | settleWait => exact .inr (.inl ⟨rfl, mainStep_of_settleWait he ms ▸ h⟩)
  | setspeedBegin w => exact .inr (.inr (.inl ⟨w, rfl, mainStep_of_setspeedBegin he ms ▸ h⟩))
  | dispatchDone =>
    rw [mainStep_of_dispatchDone he] at h
    cases h
    exact .inr (.inr (.inr (.inl ⟨rfl, rfl⟩)))
  | loop w =>
    rw [mainStep_of_loop he, loopStep_eq_next] at h
    obtain ⟨u, hu, rfl⟩ := h
    exact .inr (.inr (.inr (.inr ⟨w, u, rfl, hu, rfl⟩)))

/-- LOOP touches its wheel, its sampler's mask and the register buffer at most. -/
theorem loop_keeps {w : Wheel} {ms : Nat} {s t : State} (h : loop w ms s = .next t) :
    t.cfg = s.cfg ∧ t.pendSet = s.pendSet ∧ t.mbox = s.mbox ∧ t.mlPhase = s.mlPhase ∧ t.settle = s.settle ∧
      t.inputs = s.inputs ∧ t.reads = s.reads ∧ t.drawn = s.drawn := by
  unfold loop loopBody at h
  rw [avg_eq] at h
  split_ifs at h
  · dsimp only at h
    split_ifs at h
    · cases h
      simp
    · split at h
      · cases h
        simp
      · cases h
  · cases h
    simp

/-- A main-loop turn never touches the configuration, the inputs in store or the read port (R29, R34). -/
theorem mainStep_keeps {ms : Nat} {s t : State} (h : mainStep ms s = .next t) :
    t.cfg = s.cfg ∧ t.inputs = s.inputs ∧ t.reads = s.reads ∧ t.drawn = s.drawn := by
  rcases mainStep_cases h with ⟨_, rfl⟩ | ⟨_, h⟩ | ⟨w, _, h⟩ | ⟨_, rfl⟩ | ⟨w, u, _, hl, rfl⟩
  · simp
  · rcases settleWait_eq_next.mp h with ⟨_, rfl⟩ | ⟨_, p, _, rfl⟩ <;> simp
  · rcases setspeedBegin_eq_next.mp h with ⟨_, rfl⟩ | ⟨_, p, _, rfl⟩ <;> simp
  · simp [dispatchDone]
  · obtain ⟨h₁, _, _, _, _, h₂, h₃, h₄⟩ := loop_keeps hl
    simp [h₁, h₂, h₃, h₄]

/-- What start-up accepts and with what state (R121, R141). -/
theorem startUp_eq_next {cfg : Cfg} {s : State} :
    startUp cfg = .next s ↔ cfg.legal = true ∧ s = State.resetWith cfg := by
  unfold startUp
  split_ifs with h <;> simp [h, eq_comm]

/-- The configuration that start-up loading delivers meets R6, R7 and R141. -/
theorem loaded_legal : Cfg.loaded.legal = true := Config.delivered.legal

/-- A run of `k + 1` steps whose first step has a next state goes on from there. -/
theorem run_succ_of_next {M : Host.Core} {s t : M.State} (k : Nat) (h : M.step s = .next t) :
    M.run (k + 1) s = M.run k t := by
  simp only [Host.Core.run, h]

end Sys2Proof.Machine
end

