-- ==== Sys2Proof/Laws/PerInstr.lean ====
section
/-! SUPPORT. The laws said of each command: `Length`, that the opcode alone tells the length of the command (R49, R53). -/

namespace Sys2Proof.Laws.Length

/-- The first byte of a command tells how many bytes it has, under every injective `CMD_CODE` (R53). -/
def Statement (i : Instr) : Prop :=
  ∀ c : CmdCode, c.injective = true → ∃ b rest, encode c i = b :: rest ∧ c.cmdlen b = (encode c i).length

/-- The length of a command whose code is found. -/
theorem cmdlen_code {c : CmdCode} (h : c.injective = true) (m : Mnemonic) :
    c.cmdlen (c.code m) = if m.hasPayload then 2 else 1 := by
  simp only [CmdCode.cmdlen, CmdCode.find_code h]

theorem stopBoth : Statement .stopBoth := fun _ h => ⟨_, _, rfl, cmdlen_code h .stopBoth⟩
theorem stopLeft : Statement .stopLeft := fun _ h => ⟨_, _, rfl, cmdlen_code h .stopLeft⟩
theorem stopRight : Statement .stopRight := fun _ h => ⟨_, _, rfl, cmdlen_code h .stopRight⟩
theorem fwdBoth (p : Byte) : Statement (.fwdBoth p) := fun _ h => ⟨_, _, rfl, cmdlen_code h .fwdBoth⟩
theorem fwdLeft (p : Byte) : Statement (.fwdLeft p) := fun _ h => ⟨_, _, rfl, cmdlen_code h .fwdLeft⟩
theorem fwdRight (p : Byte) : Statement (.fwdRight p) := fun _ h => ⟨_, _, rfl, cmdlen_code h .fwdRight⟩
theorem revBoth (p : Byte) : Statement (.revBoth p) := fun _ h => ⟨_, _, rfl, cmdlen_code h .revBoth⟩
theorem revLeft (p : Byte) : Statement (.revLeft p) := fun _ h => ⟨_, _, rfl, cmdlen_code h .revLeft⟩
theorem revRight (p : Byte) : Statement (.revRight p) := fun _ h => ⟨_, _, rfl, cmdlen_code h .revRight⟩

end Sys2Proof.Laws.Length
end

