-- ==== Sys2Proof/Tests/Slice0.lean ====
section
/-! SUPPORT. Tests whose expected results come from the spec (the vector or rule is named at each), the refusals of
WellFormed, and for every statement with hypotheses a witness that meets them. -/

namespace Sys2Proof.Tests

open Sys2Proof Sys2Proof.Machine

/-- Test configuration TC2 of `95_test_vectors.md`. -/
def tc2 : Cfg where
  maxForward := 10
  maxReverse := 6
  initTable := [40, 60, 80, 100, 120, 140, 160, 180, 200, 220, 240]
  calibrationOffset := { left := 5, right := -60 }
  targetTable := [5000, 4600, 4200, 3800, 3400, 3000, 2600, 2200, 1800, 1400, 1000]
  adjustDelay := 150
  settleDelay := 120
  topology := { left := .dualPhasePWM, right := .singlePinPWM }
  tw := 32
  mw := 32
  sw := 9
  cmdCode := CmdCode.listingOrder
  dirCode := DirCode.standard
  regLittleEndian := true

/-- Test configuration TC1 of `95_test_vectors.md`: `initTable[i] = i`, `targetTable[i] = 3000 - 10*i`. -/
def tc1 : Cfg where
  maxForward := 255
  maxReverse := 255
  initTable := (List.range 256).map (BitVec.ofNat 8)
  calibrationOffset := { left := 0, right := 0 }
  targetTable := (List.range 256).map (fun i => 3000 - 10 * i)
  adjustDelay := 100
  settleDelay := 100
  topology := { left := .singlePinPWM, right := .dualPhasePWM }
  tw := 32
  mw := 32
  sw := 9
  cmdCode := CmdCode.listingOrder
  dirCode := DirCode.standard
  regLittleEndian := true

/-- Reset under TC2. -/
def base : State := State.resetWith tc2

/-- Reset under TC1. -/
def base1 : State := State.resetWith tc1

/-- After step 1 of program P5: both wheels Forward at level 10. -/
def moving : State :=
  { base with
    drive := {
      left := { speed := 10, pwm := 245, dir := .forward, next := 0 }
      right := { speed := 10, pwm := 180, dir := .forward, next := 0 } }
    regmap := [(0, 1), (1, 245), (4, 1), (5, 180)] }

/-- After step 3 of program P5: the left wheel in its hold, `REV_BOTH 200` latched. -/
def holding : State :=
  { moving with
    drive := { moving.drive with left := { speed := 10, pwm := 0, dir := .forward, next := 0 } }
    regmap := [(0, 1), (4, 1), (5, 180)]
    pendSet := { left := { valid := true, s := -200 }, right := { valid := true, s := -200 } }
    mlPhase := .dispatch
    settle := { active := true, w := .left, t0 := 10 } }

/-- `s` in LOOP_L with the five left intervals at `d`. -/
def looping (d : Nat) (s : State) : State :=
  (s.setPhase .loopL).setSampler .left
    { buf := #v[d, d, d, d, d], idx := 0, last := 0, tickMask := false, tickPend := false }

/-- In DISPATCH with a request latched for wheel `w`. -/
def latched (w : Wheel) (v : Int) (s : State) : State := latchRequest w v (s.setPhase .dispatch)

/-- The next state of a step that has one. -/
def nextOf : Host.Outcome State Fault Refusal → Option State
  | .next s => some s
  | .fault _ => none
  | .refused _ => none

/-! ## WellFormed refuses ill-formed terms -/

theorem test_tc2_legal : tc2.legal = true := by decide
theorem test_raw_byte_is_no_command : (StreamItem.raw 0x04).wellFormed CmdCode.listingOrder = false := by decide
theorem test_bound_above_255 : ({ tc2 with maxForward := 256 } : Cfg).boundsLegal = false := by decide
theorem test_reverse_bound_above_255 : ({ tc2 with maxReverse := 256 } : Cfg).legal = false := by decide
theorem test_short_init_table : ({ tc2 with initTable := [40, 60] } : Cfg).tablesLegal = false := by decide
theorem test_long_target_table : ({ tc2 with targetTable := 5001 :: tc2.targetTable } : Cfg).tablesLegal = false := by
  decide
theorem test_targets_not_decreasing : ({ tc2 with targetTable := [9, 8, 8] } : Cfg).targetsLegal = false := by decide
theorem test_target_too_wide : ({ tc2 with tw := 8 } : Cfg).targetsLegal = false := by decide
theorem test_offset_out_of_range :
    ({ tc2 with calibrationOffset := { left := 0, right := -256 } } : Cfg).offsetsLegal = false := by decide
theorem test_speed_too_narrow : ({ tc2 with sw := 8 } : Cfg).speedWidthLegal = false := by decide
theorem test_commands_clash : ({ CmdCode.listingOrder with revRight := 0 } : CmdCode).injective = false := by decide
theorem test_directions_clash : ({ DirCode.standard with reverse := 1 } : DirCode).injective = false := by decide
theorem test_commands_well_formed : ([.stopBoth, .fwdLeft 0, .revRight 255] : List Instr).all Instr.wellFormed = true := by
  decide

/-! ## Decoding: each command's word from the opcode map (R50), bits 7..0 the opcode, 15..8 the payload -/

theorem test_word_stopBoth : decodeTableWord 8 0b00000000 = some .stopBoth := by decide
theorem test_word_stopLeft : decodeTableWord 8 0b00000001 = some .stopLeft := by decide
theorem test_word_stopRight : decodeTableWord 8 0b00000010 = some .stopRight := by decide
theorem test_word_fwdBoth : decodeTableWord 16 0b01100100_00000011 = some (.fwdBoth 100) := by decide
theorem test_word_fwdLeft : decodeTableWord 16 0b01111000_00000100 = some (.fwdLeft 120) := by decide
theorem test_word_fwdRight : decodeTableWord 16 0b11001000_00000101 = some (.fwdRight 200) := by decide
theorem test_word_revBoth : decodeTableWord 16 0b01000000_00000110 = some (.revBoth 64) := by decide
theorem test_word_revLeft : decodeTableWord 16 0b00110010_00000111 = some (.revLeft 50) := by decide
theorem test_word_revRight : decodeTableWord 16 0b11111111_00001000 = some (.revRight 255) := by decide
theorem test_word_unassigned : decodeTableWord 8 0b00001001 = none := by decide

/-- V-B10, V-B15, V-B16, V-B17, V-B18: the parser's corner cases. -/
theorem test_parse_vectors :
    parse CmdCode.listingOrder [0x7F, 0x04, 0x78] = [.fwdLeft 120] ∧
    parse CmdCode.listingOrder [0x04, 0x64, 0x05, 0x64] = [.fwdLeft 100, .fwdRight 100] ∧
    parse CmdCode.listingOrder [0x04, 0x00] = [.fwdLeft 0] ∧
    parse CmdCode.listingOrder [0x06, 0x40, 0x00] = [.revBoth 64, .stopBoth] ∧
    parse CmdCode.listingOrder [0x04, 0x04, 0x04] = [.fwdLeft 4] ∧ parse CmdCode.listingOrder [] = [] := by decide

/-- R53: `cmdlen`; R58: the syntax of a command. -/
theorem test_cmdlen_and_syntax :
    CmdCode.listingOrder.cmdlen 0x02 = 1 ∧ CmdCode.listingOrder.cmdlen 0x08 = 2 ∧
    CmdCode.listingOrder.cmdlen 0x09 = 1 ∧ (Instr.fwdLeft 120).asm = "FWD_LEFT 120" := by decide

/-- A step runs a placed word as the first act after reset (V-B5). -/
theorem test_first_word_after_reset :
    step (State.reset.withFetchWord 16 0x7804) = exec (.fwdLeft 120) State.reset := by rfl

/-! ## The nine commands: V-B1 to V-B9, V-B19, the mailbox after the transaction -/

theorem test_stopBoth : (nextOf (perform (.busWrite [0x00]) base)).map State.mbox =
    some { valid := true, sel := .both, act := .stop, payload := 0 } := by decide
theorem test_stopLeft_overwrites :
    (nextOf (perform (.busWrite [0x01]) (base.setMbox { valid := true, sel := .right, act := .fwd, payload := 9 }))).map
      State.mbox = some { valid := true, sel := .left, act := .stop, payload := 0 } := by decide
theorem test_stopRight : (nextOf (perform (.busWrite [0x02]) base)).map State.mbox =
    some { valid := true, sel := .right, act := .stop, payload := 0 } := by decide
theorem test_fwdBoth : (nextOf (perform (.busWrite [0x03, 0x64]) base)).map State.mbox =
    some { valid := true, sel := .both, act := .fwd, payload := 100 } := by decide
theorem test_fwdLeft : (nextOf (perform (.busWrite [0x04, 0x78]) base)).map State.mbox =
    some { valid := true, sel := .left, act := .fwd, payload := 120 } := by decide
theorem test_fwdRight : (nextOf (perform (.busWrite [0x05, 0xC8]) base)).map State.mbox =
    some { valid := true, sel := .right, act := .fwd, payload := 200 } := by decide
theorem test_revBoth : (nextOf (perform (.busWrite [0x06, 0x40]) base)).map State.mbox =
    some { valid := true, sel := .both, act := .rev, payload := 64 } := by decide
theorem test_revLeft : (nextOf (perform (.busWrite [0x07, 0x32]) base)).map State.mbox =
    some { valid := true, sel := .left, act := .rev, payload := 50 } := by decide
theorem test_revRight : (nextOf (perform (.busWrite [0x08, 0xFF]) base)).map State.mbox =
    some { valid := true, sel := .right, act := .rev, payload := 255 } := by decide

/-! ## The internal operations -/

/-- V-T3: the index wraps. -/
theorem test_tick_wraps_index :
    (nextOf (perform (.tick .right 350) (base.setSampler .right
      { buf := #v[0, 0, 0, 0, 0], idx := 4, last := 100, tickMask := false, tickPend := true }))).map
        (fun t => t.sampler.right) =
      some { buf := #v[0, 0, 0, 0, 250], idx := 0, last := 350, tickMask := false, tickPend := false } := by decide

/-- V-T4: the delta across a wrap of the clock. -/
theorem test_delta_wraps : tickDelta tc2 0x00000100 0xFFFFFF00 = 0x00000200 := by decide

/-- V-T6: two edges merge into one tick, and a further turn is no tick. -/
theorem test_edges_merge :
    (nextOf (performAll [.edge .left, .edge .left, .tick .left 3000, .tick .left 4000] base)).map
      (fun t => t.sampler.left) =
      some { buf := #v[3000, 0, 0, 0, 0], idx := 1, last := 3000, tickMask := false, tickPend := false } := by decide

/-- V-A2, V-A3, V-A7, V-A8. -/
theorem test_average :
    ringAverage #v[1000, 1000, 1000, 0, 0] = 600 ∧ ringAverage #v[1, 1, 1, 1, 0] = 0 ∧
    ringAverage #v[1800, 1800, 1800, 1800, 1799] = 1799 ∧
    ringAverage #v[0xFFFFFFFF, 0xFFFFFFFF, 0xFFFFFFFF, 0xFFFFFFFF, 0xFFFFFFFF] = 0xFFFFFFFF := by decide

/-- V-D2: DRAIN keeps the other fields of the mailbox. -/
theorem test_drain :
    (nextOf (perform (.mainLoop 0) (base.setMbox { valid := true, sel := .left, act := .fwd, payload := 120 }))).map
      (fun t => (t.mbox, t.pendSet.left, t.pendSet.right, t.mlPhase)) =
      some ({ valid := false, sel := .left, act := .fwd, payload := 120 }, { valid := true, s := 120 },
        { valid := false, s := 0 }, .dispatch) := by decide

/-- V-S8, V-S9, V-S10, V-S11: clamp, table, offset. -/
theorem test_initial_pwm :
    clampRequest tc2 120 = 10 ∧ initialPwm tc2 .left 10 = some 245 ∧ initialPwm tc2 .right 10 = some 180 ∧
    initialPwm tc2 .right 1 = some 0 ∧ clampRequest tc2 (-200) = -6 ∧ initialPwm tc2 .left (-6) = some 165 ∧
    initialPwm tc2 .left 0 = some 0 := by decide

/-- V-S11: a direct start in reverse shows in the register buffer. -/
theorem test_setspeed_direct :
    (nextOf (perform (.mainLoop 7) (latched .left (-200) base))).map (fun t => (t.regmap, t.drive.left, t.pendSet.left)) =
      some ([(0, 2), (1, 0xA5)], { speed := -6, pwm := 165, dir := .reverse, next := 0 },
        { valid := false, s := -200 }) := by decide

/-- P5 step 3: the settle path. -/
theorem test_setspeed_settle :
    nextOf (perform (.mainLoop 10) (latched .left (-200) (latched .right (-200) moving))) = some holding := by decide

/-- P5 steps 4 and 5: 119 ms hold, 120 ms complete. -/
theorem test_settle_wait :
    nextOf (perform (.mainLoop 129) holding) = some holding ∧
    (nextOf (perform (.mainLoop 130) holding)).map (fun t => (t.regmap, t.drive.left, t.settle, t.mlPhase)) =
      some ([(0, 2), (1, 0xA5), (4, 1), (5, 0xB4)], { speed := -6, pwm := 165, dir := .reverse, next := 0 },
        { active := false, w := .left, t0 := 10 }, .dispatch) := by decide

/-- V-W4, V-W5 (with the delay 100 of TC1): the elapsed time is modular. -/
theorem test_settle_wraps :
    settleElapsed tc1 0x00000020 0xFFFFFFC0 = false ∧ settleElapsed tc1 0x00000024 0xFFFFFFC0 = true := by decide

/-- V-L1, V-L4, V-L5, V-L3, V-L11: the trim. -/
theorem test_trim :
    trimPwm 1700 1800 120 = 119 ∧ trimPwm 1700 1800 0 = 0 ∧ trimPwm 1900 1800 255 = 255 ∧ trimPwm 1800 1800 120 = 120 ∧
    trimPwm 1 1800 120 = 119 := by decide

/-- V-L12: `next` wraps. -/
theorem test_next_wraps : nextAdjust tc1 0xFFFFFFF0 = 0x00000054 := by decide

/-- R80 under TC2 (target 1000 at level 10, delay 150), a measured 1200 (`B0 04`): one up. -/
theorem test_loop_cycle :
    (nextOf (perform (.mainLoop 500) (looping 1200 moving))).map (fun t => (t.regmap, t.drive.left, t.mlPhase)) =
      some ([(0, 1), (1, 246), (2, 0xB0), (3, 0x04), (4, 1), (5, 180)],
        { speed := 10, pwm := 246, dir := .forward, next := 650 }, .loopR) := by decide

/-- V-L10: the tickRate word saturates. -/
theorem test_rate_saturates : rateBytes tc2 (sat16 100000) = [0xFF, 0xFF] ∧ rateBytes tc2 900 = [0x84, 0x03] ∧
    rateBytes { tc2 with regLittleEndian := false } 900 = [0x03, 0x84] := by decide

/-- V-R3: a snapshot. -/
theorem test_bus_read :
    (nextOf (perform .busRead { base with regmap := [(0, 1), (1, 0xC7), (2, 0x84), (3, 3), (4, 2), (5, 0x32)] })).map
      State.reads = some [[0x01, 0xC7, 0x84, 0x03, 0x02, 0x32, 0x00, 0x00]] := by decide

/-- V-X1: RESET inside a hold. -/
theorem test_reset_inside_hold : nextOf (perform .reset holding) = some base := by decide

/-- S9: the pins in each direction. -/
theorem test_pins :
    pins base .left = .dualPhase 0 .low .low ∧ pins moving .left = .dualPhase 245 .low .high ∧
    pins moving .right = .singlePin 180 .low ∧
    pins (moving.setDrive .left { speed := -6, pwm := 165, dir := .reverse, next := 0 }) .left =
      .dualPhase 165 .high .low := by decide

/-- A table one entry short stops the step by name (R121). -/
theorem test_short_table_refused :
    perform (.mainLoop 0) (latched .left 10 { base with cfg := { tc2 with initTable := tc2.initTable.dropLast } }) =
      .refused .tableTooShort := by rfl

/-! ## Witnesses: for each statement with hypotheses, a state and operands that meet them together -/

theorem inv_base : MachineInv base := by
  refine ⟨fun w => ?_, ?_, by decide⟩
  · cases w <;> constructor <;> decide
  · constructor <;> decide

theorem inv_base1 : MachineInv base1 := by
  refine ⟨fun w => ?_, ?_, by decide⟩
  · cases w <;> constructor <;> decide
  · constructor <;> decide

theorem inv_moving : MachineInv moving := by
  refine ⟨fun w => ?_, ?_, by decide⟩
  · cases w <;> constructor <;> decide
  · constructor <;> decide

theorem inv_holding : MachineInv holding := by
  refine ⟨fun w => ?_, ?_, by decide⟩
  · cases w <;> constructor <;> decide
  · constructor <;> decide

theorem inv_looping : MachineInv (looping 1200 moving) := by
  refine ⟨fun w => ?_, ?_, by decide⟩
  · cases w <;> constructor <;> decide
  · constructor <;> decide

/-- The left wheel's request latched, the wheel Stopped, Forward or in its direction. -/
theorem inv_latched : MachineInv (latched .left (-255) base) ∧ MachineInv (latched .left 255 moving) ∧
    MachineInv (latched .left 0 moving) := by
  refine ⟨⟨fun w => ?_, ?_, by decide⟩, ⟨fun w => ?_, ?_, by decide⟩, ⟨fun w => ?_, ?_, by decide⟩⟩
  · cases w <;> constructor <;> decide
  · constructor <;> decide
  · cases w <;> constructor <;> decide
  · constructor <;> decide
  · cases w <;> constructor <;> decide
  · constructor <;> decide

/-- DecodeOfEncodeIsTheCommand. -/
theorem witness_DecodeOfEncode :
    CmdCode.listingOrder.injective = true ∧ (Instr.revRight 255).wellFormed = true := by decide

/-- DecodedBytesAreTheEncoding. -/
theorem witness_DecodedBytes :
    decode CmdCode.listingOrder [0x04, 0x78, 0x09] = .command (.fwdLeft 120) [0x09] := by decide

/-- ParseOfAssembledStream, UnrecognisedByteIsANoOp, TruncatedCommandIsDiscarded. -/
theorem witness_Streams :
    base.cfg.cmdCode.injective = true ∧
    (∀ x ∈ [StreamItem.raw 0x7F, .command (.fwdLeft 120), .raw 0x09, .raw 0xFF],
      x.wellFormed base.cfg.cmdCode = true) ∧
    base.cfg.cmdCode.bytes.contains 0x09 = false ∧ base.cfg.cmdCode.bytes.contains 0xFF = false ∧
    Mnemonic.fwdBoth.hasPayload = true := by decide

/-- StepRunsTheDecodedCommand, each clause. -/
theorem witness_StepRuns :
    ({ base with inputs := [.busWrite [0x08, 0xFF], .busRead] } : State).inputs = [.busWrite [0x08, 0xFF], .busRead] ∧
    decode base.cfg.cmdCode [0x08, 0xFF] = .command (.revRight 255) [] ∧ base.cfg.cmdCode.injective = true ∧
    [Event.busWrite [0x08, 0xFF], .busRead] = .busWrite (encode base.cfg.cmdCode (.revRight 255)) :: [.busRead] ∧
    base.cfg.cmdCode = CmdCode.listingOrder ∧ decodeTableWord 8 0x00 = some .stopBoth ∧
    decodeTableWord 16 0xFF08 = some (.revRight 255) := by decide

/-- StepTakesTheNextAct, both clauses. -/
theorem witness_StepTakes : ({ base with inputs := [.edge .left] } : State).inputs = [.edge .left] ∧ base.inputs = [] := by
  decide

/-- LastCommandOfATransactionWins, both clauses (V-B14, V-B15). -/
theorem witness_LastCommand : parse base.cfg.cmdCode [0x04] = [] ∧
    parse base.cfg.cmdCode [0x04, 0x64, 0x05, 0x64] = [.fwdLeft 100] ++ [.fwdRight 100] := by decide

/-- DrainIsAnAtomicSwap, EveryCommandLatchesItsRequests, PayloadIsAnUnsignedMagnitude, ZeroPayloadActsAsStop: in
DRAIN, empty and full. -/
theorem witness_Drain : base.mlPhase = .drain ∧ base.mbox.valid = false ∧ base.cfg.cmdCode.injective = true ∧
    (mboxWrite .both .rev 255 base).mlPhase = .drain ∧ (mboxWrite .both .rev 255 base).mbox.valid = true ∧
    Mnemonic.revBoth.hasPayload = true ∧ MachineInv base := by
  refine ⟨by decide, by decide, by decide, by decide, by decide, by decide, inv_base⟩

/-- DirectCommandSetsItsWheels: from Stopped, and in the direction both wheels have. -/
theorem witness_DirectCommand : base.cfg.legal = true ∧ MachineInv base ∧ base.mlPhase = .drain ∧
    (∀ w v, requestOf (.fwdBoth 255) w = some v → (base.drive.get w).speed = 0 ∨
      sgn (clampRequest base.cfg v) = sgn (base.drive.get w).speed) ∧
    moving.cfg.legal = true ∧ MachineInv moving ∧ moving.mlPhase = .drain ∧
    (∀ w v, requestOf (.fwdLeft 1) w = some v → (moving.drive.get w).speed = 0 ∨
      sgn (clampRequest moving.cfg v) = sgn (moving.drive.get w).speed) := by
  refine ⟨by decide, inv_base, by decide, ?_, by decide, inv_moving, by decide, ?_⟩
  · intro w v _; cases w <;> exact .inl rfl
  · intro w v h
    cases w with
    | left => cases h; exact .inr (by decide)
    | right => cases h

/-- ForwardLeft120ShowsInRegisterMap (S6, under TC1). -/
theorem witness_ForwardLeft120 : MachineInv base1 ∧ base1.cfg.cmdCode.injective = true ∧ base1.mlPhase = .drain ∧
    (base1.drive.get .left).dir ≠ .reverse ∧ 120 ≤ base1.cfg.maxForward ∧ base1.cfg.initTable[120]? = some 120 ∧
    clamp (((120 : Byte).toNat : Int) + base1.cfg.calibrationOffset.get .left) 0 255 = 120 := by
  refine ⟨inv_base1, by decide, by decide, by decide, by decide, by decide, by decide⟩

/-- StopBothStopsTwoMovingWheelsInTwoHolds. -/
theorem witness_StopBoth : MachineInv moving ∧ moving.cfg.cmdCode.injective = true ∧ moving.mlPhase = .drain ∧
    (∀ w, (moving.drive.get w).speed ≠ 0) ∧ settleElapsed moving.cfg (inMs moving.cfg 120) (inMs moving.cfg 0) = true ∧
    settleElapsed moving.cfg (inMs moving.cfg 240) (inMs moving.cfg 120) = true := by
  refine ⟨inv_moving, by decide, by decide, fun w => ?_, by decide, by decide⟩
  cases w <;> decide

/-- EmptyMailboxStaysEmptyWithoutAWrite. -/
theorem witness_EmptyMailbox : base.mbox.valid = false ∧
    (∀ e ∈ [Event.edge .left, .mainLoop 5, .busRead], ∀ bytes, e ≠ .busWrite bytes) ∧
    ∃ t, performAll [Event.edge .left, .mainLoop 5, .busRead] base = .next t := by
  refine ⟨by decide, fun e he b h => ?_, _, rfl⟩
  subst h
  simp at he

/-- EdgeIsLatchedAndMerged, TickRecordsTheDelta, DisabledTickChangesNothing (no edge; masked), FiveTicksFillTheRing. -/
theorem witness_Tick : ((edge .right base).sampler.get .right).tickPend = true ∧
    ((edge .right base).sampler.get .right).tickMask = false ∧ (base.sampler.get .left).tickPend = false ∧
    ((avgMask .left (edge .left base)).sampler.get .left).tickMask = true := by decide

/-- AverageOfIdenticalTicks, at both sides of five ticks; AverageIsTheFloorOfTheExactSum with a full ring. -/
theorem witness_Average : 1000 < 2 ^ tc1.tw ∧ 4 < 5 ∧ 5 ≤ 5 ∧
    (∀ i : Fin 5, ((looping 0xFFFFFFFF moving).sampler.get .left).buf[i] < 2 ^ moving.cfg.tw) ∧
    ((looping 0xFFFFFFFF moving).sampler.get .left).tickMask = false := by decide

/-- AverageIsAtomicUnderItsMask. -/
theorem witness_AverageAtomic : ((looping 1000 moving).sampler.get .left).tickMask = false ∧
    (∀ e ∈ [Event.edge .left, .tick .left 6200, .tick .right 7, .busWrite [0x00], .busRead], e.isInterrupt = true) := by
  decide

/-- SetspeedCompleteSetsTheWheel: a stop, and the largest level. -/
theorem witness_SetspeedComplete : Memory.wf moving.regmap = true ∧ ((0 : Int) = 0 ∧ (0 : Byte) = 0) ∧
    (10 : Int) ≠ 0 ∧ moving.cfg.initTable[(10 : Int).natAbs]? = some 240 ∧
    ((245 : Byte).toNat : Int) = clamp (((240 : Byte).toNat : Int) + moving.cfg.calibrationOffset.get .left) 0 255 := by
  decide

/-- SettlePathForcesPwmZero. -/
theorem witness_SettlePath : Memory.wf (latched .right (-200) moving).regmap = true ∧
    (latched .right (-200) moving).mlPhase = .dispatch ∧ (latched .right (-200) moving).settle.active = false ∧
    ((latched .right (-200) moving).pendSet.get .right).valid = true ∧
    (Wheel.right = .right → ((latched .right (-200) moving).pendSet.get .left).valid = false) ∧
    ((latched .right (-200) moving).drive.get .right).speed ≠ 0 ∧
    sgn (clamp ((latched .right (-200) moving).pendSet.get .right).s (-(moving.cfg.maxReverse : Int))
      moving.cfg.maxForward) ≠ sgn ((latched .right (-200) moving).drive.get .right).speed := by decide

/-- SettleWaitHoldsForTheDelay: 119 and 120 milliseconds after 10. -/
theorem witness_SettleWait : holding.mlPhase = .dispatch ∧ holding.settle.active = true ∧
    ((129 % 2 ^ holding.cfg.mw : Nat) - holding.settle.t0 : Int) % (2 ^ holding.cfg.mw : Nat) < holding.cfg.settleDelay ∧
    (holding.cfg.settleDelay : Int) ≤ ((130 % 2 ^ holding.cfg.mw : Nat) - holding.settle.t0 : Int) %
      (2 ^ holding.cfg.mw : Nat) := by decide

/-- StoredSpeedIsTheClampedRequest: the direct path, the end of a hold, a request in a direction whose bound is 0 (both
directions), and the completion clause where the step begins a hold. -/
theorem witness_StoredSpeed :
    ((latched .left (-255) base).mlPhase = .dispatch ∧ ((latched .left (-255) base).pendSet.get .left).valid = true ∧
      ∃ t, perform (.mainLoop 7) (latched .left (-255) base) = .next t ∧ (t.pendSet.get .left).valid = false) ∧
    (holding.mlPhase = .dispatch ∧ (holding.pendSet.get .left).valid = true ∧
      ∃ t, perform (.mainLoop 130) holding = .next t ∧ (t.pendSet.get .left).valid = false) ∧
    (∃ t, perform (.mainLoop 7) (latched .left 1 { base with cfg := { tc2 with maxForward := 0 } }) = .next t ∧
      (t.pendSet.get .left).valid = false) ∧
    (∃ t, perform (.mainLoop 7) (latched .left (-1) { base with cfg := { tc2 with maxReverse := 0 } }) = .next t ∧
      (t.pendSet.get .left).valid = false) ∧
    (MachineInv (latched .left 0 moving) ∧ (latched .left 0 moving).cfg.legal = true ∧
      (latched .left 0 moving).mlPhase = .dispatch ∧ ((latched .left 0 moving).pendSet.get .left).valid = true) :=
  ⟨⟨by decide, by decide, _, rfl, by decide⟩, ⟨by decide, by decide, _, rfl, by decide⟩, ⟨_, rfl, by decide⟩,
    ⟨_, rfl, by decide⟩, inv_latched.2.2, by decide, by decide, by decide⟩

/-- StateMachineTakesThePathOfItsTable: Stopped, Forward going on, Forward to a stop. -/
theorem witness_StateMachine : tc2.legal = true ∧
    (MachineInv (latched .left (-255) base) ∧ enabledMainStep (latched .left (-255) base) = .setspeedBegin .left ∧
      (base.drive.get .left).dir = .stopped) ∧
    (MachineInv (latched .left 255 moving) ∧ enabledMainStep (latched .left 255 moving) = .setspeedBegin .left ∧
      (moving.drive.get .left).dir = .forward ∧ 0 < clampRequest tc2 255) ∧
    (MachineInv (latched .left 0 moving) ∧ enabledMainStep (latched .left 0 moving) = .setspeedBegin .left ∧
      clampRequest tc2 0 ≤ 0) :=
  ⟨by decide, ⟨inv_latched.1, by decide, by decide⟩, ⟨inv_latched.2.1, by decide, by decide, by decide⟩,
    ⟨inv_latched.2.2, by decide, by decide⟩⟩

/-- DirectionChangesOnlyAtZeroPwm: from Stopped, and at the end of a hold. -/
theorem witness_DirectionChanges :
    (MachineInv (latched .left (-255) base) ∧ ∃ t, perform (.mainLoop 7) (latched .left (-255) base) = .next t ∧
      (t.drive.get .left).dir ≠ (base.drive.get .left).dir) ∧
    (MachineInv holding ∧ (holding.drive.get .left).speed ≠ 0 ∧ ∃ t, perform (.mainLoop 130) holding = .next t ∧
      (t.drive.get .left).dir ≠ (holding.drive.get .left).dir) :=
  ⟨⟨inv_latched.1, _, rfl, by decide⟩, inv_holding, by decide, _, rfl, by decide⟩

/-- SettleHoldLastsTheDelay: a write, a tick, a read and a turn one millisecond before the end. -/
theorem witness_SettleHold : MachineInv holding ∧ holding.settle.active = true ∧
    (∀ e ∈ [Event.busWrite [0x00], .edge .left, .tick .left 9, .busRead, .mainLoop 129], e ≠ .reset) ∧
    (∀ ms, .mainLoop ms ∈ [Event.busWrite [0x00], .edge .left, .tick .left 9, .busRead, .mainLoop 129] →
      settleElapsed holding.cfg (inMs holding.cfg ms) holding.settle.t0 = false) := by
  refine ⟨inv_holding, by decide, by decide, fun ms h => ?_⟩
  simp at h
  subst h
  decide

/-- LoopWithFalseGuardOnlyAdvances: speed 0, and a reading equal to `next`. -/
theorem witness_LoopFalseGuard : enabledMainStep (looping 0 base) = .loop .left ∧
    ((looping 0 base).drive.get .left).speed = 0 ∧ enabledMainStep (looping 0 moving) = .loop .left ∧
    0 % 2 ^ moving.cfg.mw ≤ ((looping 0 moving).drive.get .left).next := by decide

/-- LoopSkipsWithoutData. -/
theorem witness_LoopSkips : enabledMainStep (looping 0 moving) = .loop .left ∧
    ((looping 0 moving).sampler.get .left).tickMask = false ∧ ((looping 0 moving).drive.get .left).speed ≠ 0 ∧
    ((looping 0 moving).drive.get .left).next < 1 % 2 ^ moving.cfg.mw ∧ (avg .left (looping 0 moving)).1 = 0 := by decide

/-- AdjustmentCycleTrimsByOne, RefreshWritesTheWheelsGroup: below, at and above the target. -/
theorem witness_Adjustment : Memory.wf moving.regmap = true ∧ enabledMainStep (looping 999 moving) = .loop .left ∧
    ((looping 999 moving).sampler.get .left).tickMask = false ∧ ((looping 999 moving).drive.get .left).speed ≠ 0 ∧
    ((looping 999 moving).drive.get .left).next < 1 % 2 ^ moving.cfg.mw ∧ (avg .left (looping 999 moving)).1 ≠ 0 ∧
    moving.cfg.targetTable[((looping 999 moving).drive.get .left).speed.natAbs]? = some 1000 ∧
    (avg .left (looping 999 moving)).1 < 1000 ∧ (avg .left (looping 1000 moving)).1 = 1000 ∧
    1000 < (avg .left (looping 1001 moving)).1 := by decide

/-- TickRateWordChangesOnlyInACycle, OutputsChangeOnlyInTheirSteps (LOOP), MainLoopLeavesTheSamplersAlone. -/
theorem witness_TickRate : MachineInv (looping 1200 moving) ∧ Event.mainLoop 500 ≠ .reset ∧
    ∃ t, perform (.mainLoop 500) (looping 1200 moving) = .next t ∧
      Memory.read t.regmap (rateOffset .left) ≠ Memory.read (looping 1200 moving).regmap (rateOffset .left) ∧
      pwmOut t .left ≠ pwmOut (looping 1200 moving) .left :=
  ⟨inv_looping, by decide, _, rfl, by decide, by decide⟩

/-- SnapshotShowsBothWheels, LegalMachineNeverStops, EveryStepKeepsTheInvariant, NoStepChangesTheConfiguration. -/
theorem witness_Steps : MachineInv moving ∧ moving.cfg.legal = true ∧
    ∃ t, step { moving with inputs := [.mainLoop 3] } = .next t :=
  ⟨inv_moving, by decide, _, rfl⟩

/-- EveryStepKeepsTheInvariant in a hold, whose step completes it. -/
theorem witness_StepKeeps : MachineInv { holding with inputs := [.mainLoop 130] } ∧
    ∃ t, step { holding with inputs := [.mainLoop 130] } = .next t ∧ t.settle.active = false := by
  refine ⟨⟨fun w => ?_, ?_, by decide⟩, _, rfl, by decide⟩
  · cases w <;> constructor <;> decide
  · constructor <;> decide

/-- MainLoopStepInEachPhase, PhaseGoesRoundInOrder, each clause. -/
theorem witness_Phases : base.mlPhase = .drain ∧ (holding.mlPhase = .dispatch ∧ holding.settle.active = true) ∧
    (latched .left 0 base).mlPhase = .dispatch ∧ (latched .left 0 base).settle.active = false ∧
    ((latched .left 0 base).pendSet.get .left).valid = true ∧ ((latched .right 0 base).pendSet.get .left).valid = false ∧
    ((latched .right 0 base).pendSet.get .right).valid = true ∧
    enabledMainStep (base.setPhase .dispatch) = .dispatchDone ∧ ((base.setPhase .dispatch).pendSet.get .right).valid = false ∧
    (base.setPhase .loopL).mlPhase = .loopL ∧ (base.setPhase .loopR).mlPhase = .loopR ∧
    nextOf (perform (.mainLoop 0) (base.setPhase .loopR)) = some base := by decide

/-- HandlersLeaveTheMainLoopAlone. -/
theorem witness_Handlers : (Event.edge .left).isInterrupt = true ∧ (Event.tick .left 5).isInterrupt = true ∧
    (Event.busWrite []).isInterrupt = true ∧ Event.busRead.isInterrupt = true := by decide

/-- WheelsDoNotInteract, OutputsChangeOnlyInTheirSteps: SETSPEED_BEGIN with and without a hold, SETTLE_WAIT, LOOP. -/
theorem witness_Wheels : Wheel.right ≠ .left ∧
    (enabledMainStep (latched .left 0 moving) = .setspeedBegin .left ∧
      ∃ t, perform (.mainLoop 5) (latched .left 0 moving) = .next t ∧ t.settle.active = true ∧
        pwmOut t .left ≠ pwmOut (latched .left 0 moving) .left) ∧
    (enabledMainStep (latched .left 1 moving) = .setspeedBegin .left ∧
      ∃ t, perform (.mainLoop 5) (latched .left 1 moving) = .next t ∧ t.settle.active = false) ∧
    (enabledMainStep holding = .settleWait ∧ holding.settle.w = .left ∧
      ∃ t, perform (.mainLoop 130) holding = .next t ∧ t.settle.active = false ∧ dirOut t .left ≠ dirOut holding .left) ∧
    (enabledMainStep (looping 1200 moving) = .loop .left ∧ ∃ t, perform (.mainLoop 5) (looping 1200 moving) = .next t) :=
  ⟨by decide, ⟨by decide, _, rfl, by decide, by decide⟩, ⟨by decide, _, rfl, by decide⟩,
    ⟨by decide, by decide, _, rfl, by decide, by decide⟩, by decide, _, rfl⟩

/-- PinsFollowTheTruthTables. -/
theorem witness_Pins : base.cfg.topology.get .right = .singlePinPWM ∧ base.cfg.topology.get .left = .dualPhasePWM := by
  decide

/-- A request for level 10 latched in a machine whose `initTable` is empty, the main loop's turn next. -/
def shortTable : State :=
  { latched .left 10 { base with cfg := { tc2 with initTable := [] } } with inputs := [.mainLoop 0] }

/-- OnlyAShortTableStopsAStep, in a state that meets the invariant. -/
theorem witness_ShortTable : step shortTable = .refused .tableTooShort ∧ MachineInv shortTable := by
  refine ⟨rfl, fun w => ?_, ?_, by decide⟩
  · cases w <;> constructor <;> decide
  · constructor <;> decide

/-- StartUpAcceptsLegalConfigurations, each clause. -/
theorem witness_StartUp : tc2.legal = true ∧ ({ tc2 with sw := 8 } : Cfg).legal = false ∧
    ({ tc2 with initTable := [] } : Cfg).legal = false ∧ 0 < 1 ∧
    tc2.targetTable[0]? = some 5000 ∧ tc2.targetTable[1]? = some 4600 ∧ startUp tc2 = .next base := by
  refine ⟨by decide, by decide, by decide, by decide, by decide, by decide, rfl⟩

/-- StartedMachineNeverStops: a machine that start-up accepts, and two steps of it with acts in store. -/
theorem witness_Started : startUp tc2 = .next base ∧
    ∃ t, core.run 2 { base with inputs := [.busWrite [0x03, 1], .mainLoop 0] } = .next t ∧
      (t.pendSet.get .left).valid = true :=
  ⟨rfl, _, rfl, by decide⟩

end Sys2Proof.Tests
end

section
/-! PROOF. What a legal configuration is, one clause of R6, R7 and R141 at a time, and what start-up accepts. -/

namespace Sys2Proof

/-- The check of R6 runs along the table as a chain of neighbours. -/
theorem strictlyDecreasing_iff_isChain (l : List Nat) : strictlyDecreasing l = true ↔ l.IsChain (· > ·) := by
  induction l using strictlyDecreasing.induct with
  | case1 => simp [strictlyDecreasing]
  | case2 a => simp [strictlyDecreasing]
  | case3 a b rest ih => simp [strictlyDecreasing, ih]

/-- `t[i] > t[i+1]` for every `i` (R6). -/
theorem strictlyDecreasing_iff_neighbours (l : List Nat) : strictlyDecreasing l = true ↔
    ∀ i a b, l[i]? = some a → l[i + 1]? = some b → b < a := by
  rw [strictlyDecreasing_iff_isChain, List.isChain_iff_getElem]
  simp only [List.getElem?_eq_some_iff]
  constructor
  · rintro h i _ _ ⟨_, rfl⟩ ⟨hi, rfl⟩
    exact h i hi
  · intro h i hi
    exact h i _ _ ⟨by omega, rfl⟩ ⟨hi, rfl⟩

/-- A strictly decreasing table decreases from any entry to any later one, not only to the next. -/
theorem lt_of_strictlyDecreasing {l : List Nat} (h : strictlyDecreasing l = true) {i j : Nat} (hij : i < j)
    {a b : Nat} (ha : l[i]? = some a) (hb : l[j]? = some b) : b < a := by
  have hp := List.isChain_iff_pairwise.mp ((strictlyDecreasing_iff_isChain l).mp h)
  obtain ⟨hi, rfl⟩ := List.getElem?_eq_some_iff.mp ha
  obtain ⟨hj, rfl⟩ := List.getElem?_eq_some_iff.mp hb
  exact List.pairwise_iff_getElem.mp hp i j hi hj hij

/-- The check on the nine bytes is injectivity of `CMD_CODE` (R141). -/
theorem CmdCode.injective_iff (c : CmdCode) : c.injective = true ↔ Function.Injective c.code :=
  ⟨fun h _ _ => CmdCode.code_injective h, fun h => decide_eq_true (List.Nodup.map (l := Mnemonic.all) h (by decide))⟩

/-- The check on the three bytes is injectivity of `DIR_CODE` (R141). -/
theorem DirCode.injective_iff (c : DirCode) : c.injective = true ↔ Function.Injective (Machine.dirByte c) := by
  have hall : ∀ d, d ∈ [Machine.Dir.stopped, .forward, .reverse] := fun d => by cases d <;> decide
  have hmap : [c.stopped, c.forward, c.reverse] = [.stopped, .forward, .reverse].map (Machine.dirByte c) := rfl
  rw [DirCode.injective, decide_eq_true_eq, hmap, List.nodup_map_iff_inj_on (by decide)]
  exact ⟨fun h d e => h d (hall d) e (hall e), fun h d _ e _ => @h d e⟩

theorem Cfg.boundsLegal_iff (cfg : Cfg) : cfg.boundsLegal = true ↔ cfg.maxForward ≤ 255 ∧ cfg.maxReverse ≤ 255 := by
  simp [Cfg.boundsLegal]

theorem Cfg.tablesLegal_iff (cfg : Cfg) : cfg.tablesLegal = true ↔
    cfg.initTable.length = max cfg.maxForward cfg.maxReverse + 1 ∧
    cfg.targetTable.length = max cfg.maxForward cfg.maxReverse + 1 := by
  rw [Cfg.tablesLegal, Bool.and_eq_true, decide_eq_true_eq, decide_eq_true_eq, Cfg.maxSpeed]

theorem Cfg.targetsLegal_iff (cfg : Cfg) : cfg.targetsLegal = true ↔
    (∀ t ∈ cfg.targetTable, t < 2 ^ cfg.tw) ∧ strictlyDecreasing cfg.targetTable = true := by
  simp [Cfg.targetsLegal]

theorem Cfg.offsetsLegal_iff (cfg : Cfg) : cfg.offsetsLegal = true ↔
    ∀ w, -255 ≤ cfg.calibrationOffset.get w ∧ cfg.calibrationOffset.get w ≤ 255 := by
  simp only [Cfg.offsetsLegal, offsetLegal, Bool.and_eq_true, decide_eq_true_eq]
  constructor
  · rintro ⟨hl, hr⟩ (_ | _)
    · exact hl
    · exact hr
  · exact fun h => ⟨h .left, h .right⟩

theorem Cfg.speedWidthLegal_iff (cfg : Cfg) : cfg.speedWidthLegal = true ↔ 9 ≤ cfg.sw := decide_eq_true_iff

/-- A legal configuration is one that passes each of the seven checks (R141). -/
theorem Cfg.legal_iff (cfg : Cfg) : cfg.legal = true ↔
    cfg.boundsLegal = true ∧ cfg.tablesLegal = true ∧ cfg.targetsLegal = true ∧ cfg.offsetsLegal = true ∧
    cfg.speedWidthLegal = true ∧ cfg.cmdCode.injective = true ∧ cfg.dirCode.injective = true := by
  simp only [Cfg.legal, Bool.and_eq_true, and_assoc]

/-- The target table of a legal configuration is strictly decreasing (R6). -/
theorem Cfg.strictlyDecreasing_of_legal {cfg : Cfg} (h : cfg.legal = true) :
    strictlyDecreasing cfg.targetTable = true := by
  obtain ⟨-, -, htargets, -⟩ := cfg.legal_iff.mp h
  exact (cfg.targetsLegal_iff.mp htargets).2

namespace Machine

/-- Start-up refuses a configuration that is not legal (R121, U13). -/
theorem startUp_of_not_legal {cfg : Cfg} (h : cfg.legal = false) : startUp cfg = .refused .illegalConfiguration := by
  simp [startUp, h]

/-- Settles O57: each of the seven checks of `Cfg.legal` says its clause of R6, R7 or R141, and start-up decides by it. -/
theorem startUpAcceptsLegalConfigurations : Obligations.StartUpAcceptsLegalConfigurations := by
  intro cfg
  refine ⟨?_, fun h => startUp_eq_next.mpr ⟨h, rfl⟩, startUp_of_not_legal,
    fun h i j hij a b => lt_of_strictlyDecreasing (Cfg.strictlyDecreasing_of_legal h) hij⟩
  rw [Cfg.legal_iff, Cfg.boundsLegal_iff, Cfg.tablesLegal_iff, Cfg.targetsLegal_iff, strictlyDecreasing_iff_neighbours,
    Cfg.offsetsLegal_iff, Cfg.speedWidthLegal_iff, CmdCode.injective_iff, DirCode.injective_iff]
  simp only [and_assoc, Function.Injective]

end Machine

end Sys2Proof
end

section
/-! PROOF. What each act leaves alone: the configuration, the samplers under the main loop, and the wheel that a main-loop
step does not serve. -/

namespace Sys2Proof.Machine

/-! ## The step as one act -/

/-- A step is one act on the state in which the act has been taken from the environment (R114). -/
theorem step_is_perform (s : State) :
    ∃ e inputs drawn, step s = perform e { s with inputs := inputs, drawn := drawn } := by
  unfold step
  split
  · next e rest _ => exact ⟨e, rest, s.drawn, rfl⟩
  · exact ⟨_, s.inputs, s.drawn + 1, rfl⟩

/-- An act is RESET, a turn of the main loop, or one of a handler (R113, R124). -/
theorem agent_cases (e : Event) : e = .reset ∨ (∃ ms, e = .mainLoop ms) ∨ e.isInterrupt = true := by
  cases e <;> simp [Event.isInterrupt]

/-- What a handler can have changed when its act is over (R127). -/
theorem handler_frame {e : Event} {s t : State} (he : e.isInterrupt = true) (h : perform e s = .next t) :
    ∃ sampler mbox reads, t = { s with sampler := sampler, mbox := mbox, reads := reads } := by
  obtain ⟨sampler, mbox, reads, hp⟩ := perform_interrupt he s
  cases hp.symm.trans h
  exact ⟨sampler, mbox, reads, rfl⟩

/-- No act of any agent writes the configuration (R29). -/
theorem perform_cfg {e : Event} {s t : State} (h : perform e s = .next t) : t.cfg = s.cfg := by
  rcases agent_cases e with rfl | ⟨ms, rfl⟩ | he
  · cases h
    rfl
  · exact (mainStep_keeps h).1
  · obtain ⟨_, _, _, rfl⟩ := handler_frame he h
    rfl

/-- Settles O53, act by act; a step is one act. -/
theorem noStepChangesTheConfiguration : Obligations.NoStepChangesTheConfiguration := by
  refine ⟨fun s t e => perform_cfg, fun s t h => ?_⟩
  obtain ⟨e, inputs, drawn, hs⟩ := step_is_perform s
  exact (perform_cfg (hs.symm.trans h) :)

/-! ## The main loop and what the handlers own -/

/-- On unmasked wheels a main-loop turn leaves both samplers as they are (R34, R66). -/
theorem mainStep_sampler {ms : Nat} {s t : State} (hu : ∀ w, (s.sampler.get w).tickMask = false)
    (h : mainStep ms s = .next t) : t.sampler = s.sampler := by
  rcases mainStep_cases h with ⟨_, rfl⟩ | ⟨_, h⟩ | ⟨w, _, h⟩ | ⟨_, rfl⟩ | ⟨w, u, _, hl, rfl⟩
  · exact drain_sampler s
  · rcases settleWait_eq_next.mp h with ⟨_, rfl⟩ | ⟨_, p, _, rfl⟩ <;> rfl
  · rcases setspeedBegin_eq_next.mp h with ⟨_, rfl⟩ | ⟨_, p, _, rfl⟩ <;> rfl
  · rfl
  · rcases (loop_eq_next (hu w)).mp hl with ⟨_, rfl⟩ | ⟨_, _, target, _, rfl⟩ <;> rfl

/-- Only DRAIN touches the mailbox, and it clears `valid` alone (R103). -/
theorem mainStep_mbox {ms : Nat} {s t : State} (h : mainStep ms s = .next t) :
    t.mbox = s.mbox ∨ s.mlPhase = .drain ∧ t.mbox = { s.mbox with valid := false } := by
  rcases mainStep_cases h with ⟨he, rfl⟩ | ⟨_, h⟩ | ⟨w, _, h⟩ | ⟨_, rfl⟩ | ⟨w, u, _, hl, rfl⟩
  · exact .inr ⟨enabledMainStep_eq_drain.mp he, drain_mbox s⟩
  · left
    rcases settleWait_eq_next.mp h with ⟨_, rfl⟩ | ⟨_, p, _, rfl⟩ <;> rfl
  · left
    rcases setspeedBegin_eq_next.mp h with ⟨_, rfl⟩ | ⟨_, p, _, rfl⟩ <;> rfl
  · exact .inl rfl
  · obtain ⟨_, _, hmbox, _⟩ := loop_keeps hl
    exact .inl hmbox

/-- Settles O46: the invariant has both wheels unmasked between steps, so AVG lifts a mask that it set itself. -/
theorem mainLoopLeavesTheSamplersAlone : Obligations.MainLoopLeavesTheSamplersAlone := by
  intro s t ms hinv h
  obtain ⟨-, hinputs, hreads, -⟩ := mainStep_keeps h
  exact ⟨mainStep_sampler (fun w => (hinv.wheel w).unmasked) h, hreads, hinputs, mainStep_mbox h⟩

/-! ## The wheel that is not served -/

/-- `t` has wheel `u` as `s` has it: its registers, its latch, its sampler and its group of the register buffer (R13). -/
structure SameWheel (u : Wheel) (s t : State) : Prop where
  drive : t.drive.get u = s.drive.get u
  pend : t.pendSet.get u = s.pendSet.get u
  sampler : t.sampler.get u = s.sampler.get u
  group : ∀ a, (dirOffset u ≤ a ∧ a < dirOffset u + 4) → Memory.read t.regmap a = Memory.read s.regmap a

theorem SameWheel.refl (u : Wheel) (s : State) : SameWheel u s s := ⟨rfl, rfl, rfl, fun _ _ => rfl⟩

theorem SameWheel.trans {u : Wheel} {s t v : State} (h : SameWheel u s t) (h' : SameWheel u t v) : SameWheel u s v where
  drive := h'.drive.trans h.drive
  pend := h'.pend.trans h.pend
  sampler := h'.sampler.trans h.sampler
  group a ha := (h'.group a ha).trans (h.group a ha)

section
variable {w u : Wheel} (hne : u ≠ w) (s : State)
include hne

/-- The bytes of one wheel's group lie outside the other's (R23). -/
theorem outside_of_mem_other_group {a : Nat} (ha : dirOffset u ≤ a ∧ a < dirOffset u + 4) :
    a < dirOffset w ∨ dirOffset w + 4 ≤ a := by
  cases w <;> cases u <;> simp [dirOffset] at hne ha ⊢ <;> omega

theorem SameWheel.setSampler (x : Sampler) : SameWheel u s (s.setSampler w x) where
  drive := rfl
  pend := rfl
  sampler := PerWheel.get_set_of_ne _ _ hne
  group _ _ := rfl

theorem SameWheel.setDrive (d : Drive) : SameWheel u s (s.setDrive w d) where
  drive := PerWheel.get_set_of_ne _ _ hne
  pend := rfl
  sampler := rfl
  group _ _ := rfl

theorem SameWheel.clearPend : SameWheel u s (clearPend w s) where
  drive := rfl
  pend := PerWheel.get_set_of_ne _ _ hne
  sampler := rfl
  group _ _ := rfl

theorem SameWheel.refreshDp : SameWheel u s (refreshDp w s) where
  drive := rfl
  pend := rfl
  sampler := rfl
  group a ha := by
    have hout := outside_of_mem_other_group hne ha
    exact Memory.read_writeBytes_outside _ _ _ _ (by simp only [List.length_cons, List.length_nil]; omega)

theorem SameWheel.refreshAll (m : Nat) : SameWheel u s (refreshAll w m s) where
  drive := rfl
  pend := rfl
  sampler := rfl
  group a ha := by
    have hout := outside_of_mem_other_group hne ha
    have hrate := Memory.read_writeBytes_outside (rateBytes s.cfg (sat16 m)) (Machine.refreshDp w s).regmap
      (rateOffset w) a (by simp only [length_rateBytes, rateOffset]; omega)
    exact hrate.trans ((SameWheel.refreshDp hne s).group a ha)

theorem SameWheel.completed (s' : Int) (p : Byte) : SameWheel u s (completed w s' p s) :=
  ((SameWheel.setDrive hne s _).trans (.refreshDp hne _)).trans (.clearPend hne _)

theorem SameWheel.settleBegin (ms : Nat) : SameWheel u s (settleBegin w ms s) :=
  have h := (SameWheel.setDrive hne s { s.drive.get w with pwm := 0 }).trans (.refreshDp hne _)
  ⟨h.drive, h.pend, h.sampler, h.group⟩

theorem SameWheel.adjust (now m target : Nat) : SameWheel u s (adjust w now m target s) :=
  (SameWheel.setDrive hne s _).trans (.refreshAll hne _ m)

end

/-- Whatever the mask was, LOOP unmasks its sampler and then adjusts its wheel at most (R65, R79, R80). -/
theorem loop_cases {w : Wheel} {ms : Nat} {s t : State} (h : loop w ms s = .next t) :
    ∃ x, t = s.setSampler w x ∨ ∃ m target, t = adjust w (inMs s.cfg ms) m target (s.setSampler w x) := by
  unfold loop loopBody at h
  rw [avg_eq] at h
  split_ifs at h
  · dsimp only at h
    split_ifs at h
    · cases h
      exact ⟨_, .inl rfl⟩
    · split at h
      · cases h
        exact ⟨_, .inr ⟨_, _, rfl⟩⟩
      · cases h
  · cases h
    exact ⟨s.sampler.get w, .inl (by simp)⟩

theorem SameWheel.loop {w u : Wheel} (hne : u ≠ w) {ms : Nat} {s t : State} (h : loop w ms s = .next t) :
    SameWheel u s t := by
  obtain ⟨x, rfl | ⟨m, target, rfl⟩⟩ := loop_cases h
  · exact .setSampler hne s x
  · exact (SameWheel.setSampler hne s x).trans (.adjust hne _ _ _ _)

theorem SameWheel.setspeedBegin {w u : Wheel} (hne : u ≠ w) {ms : Nat} {s t : State}
    (h : setspeedBegin w ms s = .next t) : SameWheel u s t := by
  rcases setspeedBegin_eq_next.mp h with ⟨_, rfl⟩ | ⟨_, p, _, rfl⟩
  · exact .settleBegin hne s ms
  · exact .completed hne s _ p

theorem SameWheel.settleWait {u : Wheel} {ms : Nat} {s t : State} (hne : u ≠ s.settle.w)
    (h : settleWait ms s = .next t) : SameWheel u s t := by
  rcases settleWait_eq_next.mp h with ⟨_, rfl⟩ | ⟨_, p, _, rfl⟩
  · exact .refl u t
  · have hc := SameWheel.completed hne (s.setSettle { s.settle with active := false })
      (clampRequest s.cfg (s.pendSet.get s.settle.w).s) p
    exact ⟨hc.drive, hc.pend, hc.sampler, hc.group⟩

/-- Settles O47, by the step that serves the wheel. -/
theorem wheelsDoNotInteract : Obligations.WheelsDoNotInteract := by
  intro s t ms w u hne hserves h
  have hsame : SameWheel u s t := by
    rcases hserves with he | ⟨he, rfl⟩ | he
    · exact .setspeedBegin hne ((mainStep_of_setspeedBegin he ms).symm.trans h)
    · exact .settleWait hne ((mainStep_of_settleWait he ms).symm.trans h)
    · obtain ⟨v, hl, rfl⟩ := loopStep_eq_next.mp ((mainStep_of_loop he ms).symm.trans h)
      have hv := SameWheel.loop hne hl
      exact ⟨hv.drive, hv.pend, hv.sampler, hv.group⟩
  exact ⟨hsame.drive, hsame.pend, hsame.sampler, hsame.group⟩

end Sys2Proof.Machine
end

section
/-! PROOF. The invariant of R33: it is put together from one predicate for each record of a wheel, so that an operation is
asked only about the record that it writes. -/

namespace Sys2Proof.Machine

/-! ## The records of one wheel -/

/-- The ranges of a TickSampler, unmasked as it is between steps (R14, R16, R33 item 10). -/
structure Sampler.Inv (cfg : Cfg) (x : Sampler) : Prop where
  ring : ∀ i : Fin 5, x.buf[i] < 2 ^ cfg.tw
  last : x.last < 2 ^ cfg.tw
  unmasked : x.tickMask = false

/-- The ranges of a WheelState and how its registers go together (R22, R33 items 3, 5 and 6). -/
structure Drive.Inv (cfg : Cfg) (d : Drive) : Prop where
  next : d.next < 2 ^ cfg.mw
  speedLow : -(cfg.maxReverse : Int) ≤ d.speed
  speedHigh : d.speed ≤ (cfg.maxForward : Int)
  dir : d.dir = dirOf d.speed
  stopped : d.speed = 0 → d.pwm = 0

/-- The register buffer shows the direction and the PWM of `d` in the group of wheel `w` (R33 item 7). -/
structure Memory.Shows (cfg : Cfg) (m : Memory) (w : Wheel) (d : Drive) : Prop where
  dir : Memory.read m (dirOffset w) = dirByte cfg.dirCode d.dir
  pwm : Memory.read m (pwmOffset w) = d.pwm

/-- A request is in range, and latched in the DISPATCH phase alone (R26, R103, R110). -/
structure Latch.Inv (phase : Phase) (l : Latch) : Prop where
  low : -255 ≤ l.s
  high : l.s ≤ 255
  latched : l.valid = true → phase = .dispatch

/-- The invariant of a wheel is that of its four records. -/
theorem wheelInv_iff {s : State} {w : Wheel} : WheelInv s w ↔
    (s.sampler.get w).Inv s.cfg ∧ (s.drive.get w).Inv s.cfg ∧ Memory.Shows s.cfg s.regmap w (s.drive.get w) ∧
      (s.pendSet.get w).Inv s.mlPhase := by
  constructor
  · rintro ⟨ring, last, unmasked, next, low, high, dir, stopped, dirByte, pwmByte, rlow, rhigh, latched⟩
    exact ⟨⟨ring, last, unmasked⟩, ⟨next, low, high, dir, stopped⟩, ⟨dirByte, pwmByte⟩, ⟨rlow, rhigh, latched⟩⟩
  · rintro ⟨⟨ring, last, unmasked⟩, ⟨next, low, high, dir, stopped⟩, ⟨dirByte, pwmByte⟩, ⟨rlow, rhigh, latched⟩⟩
    exact ⟨ring, last, unmasked, next, low, high, dir, stopped, dirByte, pwmByte, rlow, rhigh, latched⟩

/-- EDGE keeps the ranges of a sampler (R62). -/
theorem Sampler.Inv.pending {cfg : Cfg} {x : Sampler} (h : x.Inv cfg) : ({ x with tickPend := true } : Sampler).Inv cfg :=
  ⟨h.ring, h.last, h.unmasked⟩

/-- TICK keeps the ranges of a sampler: a delta and a clock reading are `uTW` values (R63). -/
theorem Sampler.Inv.record {cfg : Cfg} {x : Sampler} (h : x.Inv cfg) (us : Nat) : (x.record cfg (inUs cfg us)).Inv cfg where
  ring i := by
    rw [Sampler.record_buf]
    split_ifs
    · exact subMod_lt _ _ _
    · exact h.ring i
  last := inUs_lt cfg us
  unmasked := h.unmasked

/-- SETSPEED_COMPLETE leaves a wheel whose registers go together (R78). -/
theorem Drive.Inv.completed {cfg : Cfg} {d : Drive} (h : d.Inv cfg) {w : Wheel} {v : Int} {p : Byte}
    (hp : initialPwm cfg w (clampRequest cfg v) = some p) :
    ({ d with speed := clampRequest cfg v, dir := dirOf (clampRequest cfg v), pwm := p } : Drive).Inv cfg where
  next := h.next
  speedLow := (clampRequest_bounds cfg v).1
  speedHigh := (clampRequest_bounds cfg v).2
  dir := rfl
  stopped h0 := by
    dsimp only at h0
    rw [h0, initialPwm_zero] at hp
    exact (Option.some.inj hp).symm

/-- PWM 0 goes with every speed (R76). -/
theorem Drive.Inv.pwm_zero {cfg : Cfg} {d : Drive} (h : d.Inv cfg) : ({ d with pwm := 0 } : Drive).Inv cfg :=
  ⟨h.next, h.speedLow, h.speedHigh, h.dir, fun _ => rfl⟩

/-- A moving wheel may have any PWM, and `next` is a clock reading (R80). -/
theorem Drive.Inv.adjusted {cfg : Cfg} {d : Drive} (h : d.Inv cfg) (hmoving : d.speed ≠ 0) (p : Byte) (now : Nat) :
    ({ d with pwm := p, next := nextAdjust cfg now } : Drive).Inv cfg :=
  ⟨nextAdjust_lt cfg now, h.speedLow, h.speedHigh, h.dir, fun h0 => absurd h0 hmoving⟩

/-- The latch cleared, its request kept (R78). -/
theorem Latch.Inv.cleared {phase : Phase} {l : Latch} (h : l.Inv phase) :
    ({ valid := false, s := l.s } : Latch).Inv phase :=
  ⟨h.low, h.high, nofun⟩

/-- The phase may change when nothing is latched or DISPATCH is next. -/
theorem Latch.Inv.phase {phase phase' : Phase} {l : Latch} (h : l.Inv phase)
    (hp : l.valid = true → phase' = .dispatch) : l.Inv phase' :=
  ⟨h.low, h.high, hp⟩

/-- What DRAIN latches is in range (R104). -/
theorem Latch.inv_request (a : Act) (p : Byte) : ({ valid := true, s := speedOf a p } : Latch).Inv .dispatch :=
  ⟨(speedOf_bounds a p).1, (speedOf_bounds a p).2, fun _ => rfl⟩

/-! ## The wheel that is not served, and the settle hold -/

/-- A wheel that is as it was keeps its invariant under the same configuration and phase. -/
theorem WheelInv.of_sameWheel {u : Wheel} {s t : State} (h : WheelInv s u) (hsame : SameWheel u s t)
    (hcfg : t.cfg = s.cfg) (hphase : t.mlPhase = s.mlPhase) : WheelInv t u := by
  obtain ⟨hs, hd, hm, hl⟩ := wheelInv_iff.mp h
  have hdir := hsame.group (dirOffset u) ⟨le_rfl, by omega⟩
  have hpwm := hsame.group (pwmOffset u) (by unfold pwmOffset; omega)
  rw [wheelInv_iff, hcfg, hphase, hsame.sampler, hsame.drive, hsame.pend]
  exact ⟨hs, hd, ⟨hdir.trans hm.dir, hpwm.trans hm.pwm⟩, hl⟩

/-- An operation that serves wheel `w` keeps both wheels' invariants when it keeps that of `w`. -/
theorem wheelInv_of_served {w : Wheel} {s t : State} (h : ∀ u, WheelInv s u) (hsame : ∀ u, u ≠ w → SameWheel u s t)
    (hcfg : t.cfg = s.cfg) (hphase : t.mlPhase = s.mlPhase) (hw : WheelInv t w) : ∀ u, WheelInv t u := by
  intro u
  by_cases hu : u = w
  · rwa [hu]
  · exact (h u).of_sameWheel (hsame u hu) hcfg hphase

/-- Outside a hold the settle register is asked for its range alone. -/
theorem SettleInv.of_inactive {s : State} (ht0 : s.settle.t0 < 2 ^ s.cfg.mw) (h : s.settle.active = false) :
    SettleInv s where
  t0 := ht0
  phase ha := absurd (h.symm.trans ha) nofun
  request ha := absurd (h.symm.trans ha) nofun
  pwm ha := absurd (h.symm.trans ha) nofun
  moving ha := absurd (h.symm.trans ha) nofun

/-- There is no hold outside DISPATCH (R33 item 8). -/
theorem SettleInv.inactive {s : State} (h : SettleInv s) (hp : s.mlPhase ≠ .dispatch) : s.settle.active = false :=
  Bool.eq_false_iff.mpr fun ha => hp (h.phase ha)

/-- Nothing is latched outside DISPATCH (R33). -/
theorem WheelInv.not_latched {s : State} {w : Wheel} (h : WheelInv s w) (hp : s.mlPhase ≠ .dispatch) :
    (s.pendSet.get w).valid = false :=
  Bool.eq_false_iff.mpr fun hv => hp (h.latched hv)

/-! ## Operations that keep the invariant -/

/-- The mailbox, the read port and the environment's own fields are no part of the invariant. -/
theorem MachineInv.of_environment {s : State} (h : MachineInv s) (mbox : Mailbox) (inputs : List Event)
    (reads : List (List Byte)) (drawn : Nat) :
    MachineInv { s with mbox := mbox, inputs := inputs, reads := reads, drawn := drawn } where
  wheel w := (h.wheel w).of_sameWheel ⟨rfl, rfl, rfl, fun _ _ => rfl⟩ rfl rfl
  settle := ⟨h.settle.t0, h.settle.phase, h.settle.request, h.settle.pwm, h.settle.moving⟩
  regmap := h.regmap

/-- Replacing a sampler by one in range keeps the invariant. -/
theorem MachineInv.setSampler {s : State} (h : MachineInv s) {w : Wheel} {x : Sampler} (hx : x.Inv s.cfg) :
    MachineInv (s.setSampler w x) where
  wheel := by
    refine wheelInv_of_served h.wheel (fun u hu => .setSampler hu s x) rfl rfl (wheelInv_iff.mpr ?_)
    obtain ⟨-, hd, hm, hl⟩ := wheelInv_iff.mp (h.wheel w)
    exact ⟨by simpa using hx, hd, hm, hl⟩
  settle := ⟨h.settle.t0, h.settle.phase, h.settle.request, h.settle.pwm, h.settle.moving⟩
  regmap := h.regmap

theorem MachineInv.edge {s : State} (h : MachineInv s) (w : Wheel) : MachineInv (edge w s) :=
  h.setSampler (wheelInv_iff.mp (h.wheel w)).1.pending

theorem MachineInv.tick {s : State} (h : MachineInv s) (w : Wheel) (us : Nat) : MachineInv (tick w us s) := by
  cases he : (s.sampler.get w).tickEnabled with
  | true =>
    rw [tick_of_enabled he]
    exact h.setSampler ((wheelInv_iff.mp (h.wheel w)).1.record us)
  | false => rwa [tick_of_disabled he]

/-- Another phase keeps the invariant when there is no hold and nothing stays latched outside DISPATCH. -/
theorem MachineInv.setPhase {s : State} (h : MachineInv s) {p : Phase} (hactive : s.settle.active = false)
    (hlatched : ∀ w, (s.pendSet.get w).valid = false) : MachineInv (s.setPhase p) where
  wheel w := by
    obtain ⟨hs, hd, hm, hl⟩ := wheelInv_iff.mp (h.wheel w)
    exact wheelInv_iff.mpr ⟨hs, hd, hm, hl.phase fun hv => absurd ((hlatched w).symm.trans hv) nofun⟩
  settle := .of_inactive h.settle.t0 hactive
  regmap := h.regmap

theorem MachineInv.drain {s : State} (h : MachineInv s) (hp : s.mlPhase = .drain) : MachineInv (drain s) where
  wheel w := by
    obtain ⟨hs, hd, hm, hl⟩ := wheelInv_iff.mp (h.wheel w)
    simp only [wheelInv_iff, drain_cfg, drain_sampler, drain_drive, drain_regmap, drain_mlPhase, drain_pendSet_get]
    refine ⟨hs, hd, hm, ?_⟩
    split_ifs
    · exact Latch.inv_request _ _
    · exact hl.phase fun _ => rfl
  settle := by
    have hactive := h.settle.inactive (by rw [hp]; nofun)
    exact .of_inactive (by simpa using h.settle.t0) (by simpa using hactive)
  regmap := by simpa using h.regmap

/-- The end of a hold keeps the invariant (R77). -/
theorem MachineInv.endHold {s : State} (h : MachineInv s) :
    MachineInv (s.setSettle { s.settle with active := false }) where
  wheel w := (h.wheel w).of_sameWheel ⟨rfl, rfl, rfl, fun _ _ => rfl⟩ rfl rfl
  settle := .of_inactive h.settle.t0 rfl
  regmap := h.regmap

/-- SETSPEED_COMPLETE keeps the invariant outside a hold (R78). -/
theorem MachineInv.completed {s : State} (h : MachineInv s) (hactive : s.settle.active = false) {w : Wheel} {v : Int}
    {p : Byte} (hp : initialPwm s.cfg w (clampRequest s.cfg v) = some p) :
    MachineInv (completed w (clampRequest s.cfg v) p s) where
  wheel := by
    refine wheelInv_of_served h.wheel (fun u hu => .completed hu s _ p) rfl rfl (wheelInv_iff.mpr ?_)
    obtain ⟨hs, hd, -, hl⟩ := wheelInv_iff.mp (h.wheel w)
    simp only [completed_cfg, completed_sampler, completed_drive, completed_pendSet, completed_mlPhase,
      PerWheel.get_set_same]
    exact ⟨hs, hd.completed hp,
      ⟨by simp [read_completed h.regmap], by simp [read_completed h.regmap, pwmOffset]⟩, hl.cleared⟩
  settle := .of_inactive h.settle.t0 hactive
  regmap := wf_completed h.regmap w _ p

/-- The beginning of a hold keeps the invariant: the wheel is moving and its request stays latched (R76). -/
theorem MachineInv.settleBegin {s : State} (h : MachineInv s) {w : Wheel} (hmoving : (s.drive.get w).speed ≠ 0)
    (hvalid : (s.pendSet.get w).valid = true) (ms : Nat) : MachineInv (settleBegin w ms s) where
  wheel := by
    refine wheelInv_of_served h.wheel (fun u hu => .settleBegin hu s ms) rfl rfl (wheelInv_iff.mpr ?_)
    obtain ⟨hs, hd, -, hl⟩ := wheelInv_iff.mp (h.wheel w)
    simp only [settleBegin_cfg, settleBegin_sampler, settleBegin_drive, settleBegin_pendSet, settleBegin_mlPhase,
      PerWheel.get_set_same]
    exact ⟨hs, hd.pwm_zero,
      ⟨by simp [read_settleBegin h.regmap], by simp [read_settleBegin h.regmap, pwmOffset]⟩, hl⟩
  settle :=
    { t0 := inMs_lt s.cfg ms
      phase := fun _ => (h.wheel w).latched hvalid
      request := fun _ => hvalid
      pwm := by simp
      moving := by simpa using hmoving }
  regmap := wf_settleBegin h.regmap w ms

/-- An adjustment cycle of a moving wheel keeps the invariant outside a hold (R80). -/
theorem MachineInv.adjust {s : State} (h : MachineInv s) {w : Wheel} (hmoving : (s.drive.get w).speed ≠ 0)
    (hactive : s.settle.active = false) (now m target : Nat) : MachineInv (adjust w now m target s) where
  wheel := by
    refine wheelInv_of_served h.wheel (fun u hu => .adjust hu s now m target) rfl rfl (wheelInv_iff.mpr ?_)
    obtain ⟨hs, hd, -, hl⟩ := wheelInv_iff.mp (h.wheel w)
    simp only [adjust_cfg, adjust_sampler, adjust_drive, adjust_pendSet, adjust_mlPhase, PerWheel.get_set_same]
    exact ⟨hs, hd.adjusted hmoving _ _,
      ⟨by simp [read_adjust h.regmap, rateOffset, add_assoc], by simp [read_adjust h.regmap, rateOffset, pwmOffset]⟩, hl⟩
  settle := .of_inactive h.settle.t0 hactive
  regmap := wf_adjust h.regmap w now m target

/-! ## The main-loop steps -/

theorem MachineInv.settleWait {s t : State} (h : MachineInv s) {ms : Nat} (hw : settleWait ms s = .next t) :
    MachineInv t := by
  rcases settleWait_eq_next.mp hw with ⟨_, rfl⟩ | ⟨_, p, hp, rfl⟩
  · exact h
  · exact h.endHold.completed rfl hp

theorem MachineInv.setspeedBegin {s t : State} (h : MachineInv s) {w : Wheel} {ms : Nat}
    (he : enabledMainStep s = .setspeedBegin w) (hb : setspeedBegin w ms s = .next t) : MachineInv t := by
  obtain ⟨-, hactive, hvalid, -⟩ := enabledMainStep_eq_setspeedBegin.mp he
  rcases setspeedBegin_eq_next.mp hb with ⟨hneeded, rfl⟩ | ⟨_, p, hp, rfl⟩
  · exact h.settleBegin (settleNeeded_eq_true.mp hneeded).2 hvalid ms
  · exact h.completed hactive hp

theorem MachineInv.dispatchDone {s : State} (h : MachineInv s) (he : enabledMainStep s = .dispatchDone) :
    MachineInv (dispatchDone s) := by
  obtain ⟨-, hactive, hleft, hright⟩ := enabledMainStep_eq_dispatchDone.mp he
  exact h.setPhase hactive fun w => by cases w <;> assumption

/-- A wheel that passes the guard of LOOP is moving (R79). -/
theorem Drive.moving_of_loopGuard {d : Drive} {now : Nat} (h : d.loopGuard now = true) : d.speed ≠ 0 := by
  simp only [Drive.loopGuard, Bool.and_eq_true, decide_eq_true_eq] at h
  exact h.1

theorem MachineInv.loop {s t : State} (h : MachineInv s) {w : Wheel} {ms : Nat} (hactive : s.settle.active = false)
    (hl : loop w ms s = .next t) : MachineInv t := by
  rcases (loop_eq_next (h.wheel w).unmasked).mp hl with ⟨_, rfl⟩ | ⟨hguard, _, target, _, rfl⟩
  · exact h
  · exact h.adjust (Drive.moving_of_loopGuard hguard) hactive _ _ _

theorem loopPhase_ne_dispatch (w : Wheel) : loopPhase w ≠ .dispatch := by cases w <;> nofun

/-- Every main-loop step keeps the invariant. -/
theorem MachineInv.mainStep {s t : State} (h : MachineInv s) {ms : Nat} (hm : mainStep ms s = .next t) :
    MachineInv t := by
  rcases mainStep_cases hm with ⟨he, rfl⟩ | ⟨_, hw⟩ | ⟨w, he, hb⟩ | ⟨he, rfl⟩ | ⟨w, u, he, hl, rfl⟩
  · exact h.drain (enabledMainStep_eq_drain.mp he)
  · exact h.settleWait hw
  · exact h.setspeedBegin he hb
  · exact h.dispatchDone he
  · have hphase : s.mlPhase ≠ .dispatch := enabledMainStep_eq_loop.mp he ▸ loopPhase_ne_dispatch w
    have hactive := h.settle.inactive hphase
    obtain ⟨-, hpend, -, -, hsettle, -⟩ := loop_keeps hl
    exact (h.loop hactive hl).setPhase (hsettle ▸ hactive) fun v => hpend ▸ (h.wheel v).not_latched hphase

/-! ## Reset, and every act -/

/-- The register buffer after reset is in canonical form (R32). -/
theorem wf_resetRegmap (cfg : Cfg) : Memory.wf (resetRegmap cfg) = true :=
  Memory.wf_write (Memory.wf_write rfl 0 _ (by decide)) 4 _ (by decide)

/-- The register buffer after reset, byte by byte (R24, R32). -/
theorem read_resetRegmap (cfg : Cfg) (a : Nat) :
    Memory.read (resetRegmap cfg) a = if a = 4 then cfg.dirCode.stopped else if a = 0 then cfg.dirCode.stopped else 0 := by
  rw [resetRegmap, Memory.read_write (Memory.wf_write rfl 0 _ (by decide)), Memory.read_write rfl, Memory.read_nil,
    Memory.unlisted]

theorem Sampler.inv_reset (cfg : Cfg) : Sampler.reset.Inv cfg where
  ring i := by
    have hbuf : Sampler.reset.buf[i] = 0 := by fin_cases i <;> rfl
    rw [hbuf]
    positivity
  last := Nat.two_pow_pos cfg.tw
  unmasked := rfl

theorem Drive.inv_reset (cfg : Cfg) : Drive.reset.Inv cfg where
  next := Nat.two_pow_pos cfg.mw
  speedLow := by simp [Drive.reset]
  speedHigh := by simp [Drive.reset]
  dir := rfl
  stopped _ := rfl

/-- The register buffer after reset shows two stopped wheels (R32). -/
theorem shows_resetRegmap (cfg : Cfg) (w : Wheel) : Memory.Shows cfg (resetRegmap cfg) w Drive.reset := by
  cases w <;> exact ⟨by rw [read_resetRegmap]; rfl, by rw [read_resetRegmap]; rfl⟩

theorem machineInv_resetWith (cfg : Cfg) : MachineInv (State.resetWith cfg) where
  wheel w := by
    have hlatch : ({ valid := false, s := 0 } : Latch).Inv .drain := ⟨by decide, by decide, nofun⟩
    have hshows := shows_resetRegmap cfg w
    cases w <;> exact wheelInv_iff.mpr ⟨Sampler.inv_reset cfg, Drive.inv_reset cfg, hshows, hlatch⟩
  settle := .of_inactive (Nat.two_pow_pos cfg.mw) rfl
  regmap := wf_resetRegmap cfg

/-- Settles O51: each record of the reset state meets its part, whatever the configuration. -/
theorem resetStateMeetsTheInvariant : Obligations.ResetStateMeetsTheInvariant :=
  ⟨machineInv_resetWith, machineInv_resetWith Cfg.loaded⟩

/-- Every act of every agent keeps the invariant (R33). -/
theorem MachineInv.perform {s t : State} (h : MachineInv s) {e : Event} (hp : perform e s = .next t) : MachineInv t := by
  cases e with
  | reset =>
    cases hp
    exact (machineInv_resetWith s.cfg).of_environment _ _ _ _
  | edge w =>
    cases hp
    exact h.edge w
  | tick w us =>
    cases hp
    exact h.tick w us
  | busWrite bytes =>
    obtain ⟨m, hm⟩ := busWrite_is_mbox_write bytes s
    cases hm.symm.trans hp
    exact h.of_environment _ _ _ _
  | busRead =>
    cases hp
    exact h.of_environment _ _ _ _
  | mainLoop ms => exact h.mainStep hp

/-- Settles O52: a step is one act, and every act keeps the invariant. -/
theorem everyStepKeepsTheInvariant : Obligations.EveryStepKeepsTheInvariant := by
  intro s t h hs
  obtain ⟨e, inputs, drawn, he⟩ := step_is_perform s
  exact (h.of_environment s.mbox inputs s.reads drawn).perform (he.symm.trans hs)

end Sys2Proof.Machine
end

section
/-! PROOF. Where a direction changes (R33 item 4). -/

namespace Sys2Proof.Machine

/-- Only SETSPEED_COMPLETE changes a direction: at the end of the wheel's own hold, or in the SETSPEED_BEGIN of that wheel
when its request takes the direct path. -/
theorem dir_change_cases {ms : Nat} {s t : State} {w : Wheel} (h : mainStep ms s = .next t)
    (hdir : (t.drive.get w).dir ≠ (s.drive.get w).dir) :
    (s.settle.active = true ∧ s.settle.w = w ∧ settleElapsed s.cfg (inMs s.cfg ms) s.settle.t0 = true) ∨
    (settleNeeded (clampRequest s.cfg (s.pendSet.get w).s) (s.drive.get w).speed = false ∧
      (t.drive.get w).dir = dirOf (clampRequest s.cfg (s.pendSet.get w).s)) := by
  rcases mainStep_cases h with ⟨_, rfl⟩ | ⟨he, hw⟩ | ⟨v, he, hb⟩ | ⟨_, rfl⟩ | ⟨v, u, _, hl, rfl⟩
  · exact absurd (by rw [drain_drive]) hdir
  · left
    obtain ⟨-, hactive⟩ := enabledMainStep_eq_settleWait.mp he
    rcases settleWait_eq_next.mp hw with ⟨_, rfl⟩ | ⟨helapsed, _⟩
    · exact absurd rfl hdir
    · have hown : s.settle.w = w := by
        by_contra hne
        exact hdir (by rw [(SameWheel.settleWait (Ne.symm hne) hw).drive])
      exact ⟨hactive, hown, helapsed⟩
  · right
    have hown : v = w := by
      by_contra hne
      exact hdir (by rw [(SameWheel.setspeedBegin (Ne.symm hne) hb).drive])
    subst hown
    rcases setspeedBegin_eq_next.mp hb with ⟨_, rfl⟩ | ⟨hdirect, p, _, rfl⟩
    · exact absurd (by simp) hdir
    · exact ⟨hdirect, by simp⟩
  · exact absurd rfl hdir
  · by_cases hne : w = v
    · subst hne
      obtain ⟨x, rfl | ⟨m, target, rfl⟩⟩ := loop_cases hl <;> exact absurd (by simp) hdir
    · exact absurd (congrArg Drive.dir (SameWheel.loop hne hl).drive) hdir

/-- On the direct path a moving wheel keeps its direction: the request has the sign of the speed (R75). -/
theorem stopped_of_direct_dir_change {s : State} {w : Wheel} (h : WheelInv s w) {s' : Int}
    (hdirect : settleNeeded s' (s.drive.get w).speed = false) (hdir : dirOf s' ≠ (s.drive.get w).dir) :
    (s.drive.get w).speed = 0 := by
  rcases settleNeeded_eq_false.mp hdirect with hsgn | hzero
  · exact absurd ((dirOf_eq_of_sgn_eq hsgn).trans h.dir.symm) hdir
  · exact hzero

/-- Settles O34: a hold has PWM 0 by the invariant, and so has the stopped wheel of the direct path. -/
theorem directionChangesOnlyAtZeroPwm : Obligations.DirectionChangesOnlyAtZeroPwm := by
  intro s t e w hinv hne h hdir
  rcases agent_cases e with rfl | ⟨ms, rfl⟩ | he
  · exact absurd rfl hne
  · rcases dir_change_cases h hdir with ⟨hactive, rfl, helapsed⟩ | ⟨hdirect, hnew⟩
    · exact ⟨hinv.settle.pwm hactive, fun _ => ⟨hactive, rfl, ms, rfl, helapsed⟩⟩
    · have hzero := stopped_of_direct_dir_change (hinv.wheel w) hdirect (hnew ▸ hdir)
      exact ⟨(hinv.wheel w).stopped hzero, fun hmoving => absurd hzero hmoving⟩
  · obtain ⟨_, _, _, rfl⟩ := handler_frame he h
    exact absurd rfl hdir

end Sys2Proof.Machine
end

section
/-! PROOF. An empty mailbox is filled by a write transaction alone (R45). -/

namespace Sys2Proof.Machine

/-- Of all acts only BUS_WRITE sets `mbox.valid`: RESET and DRAIN clear it, and every other act leaves the mailbox. -/
theorem perform_keeps_empty_mailbox {e : Event} {s t : State} (hempty : s.mbox.valid = false)
    (hwrite : ∀ bytes, e ≠ .busWrite bytes) (h : perform e s = .next t) : t.mbox.valid = false := by
  cases e with
  | reset =>
    cases h
    rfl
  | edge w =>
    cases h
    exact hempty
  | tick w us =>
    obtain ⟨x, hx⟩ := tick_is_sampler_write w us s
    cases h
    rw [hx]
    exact hempty
  | busWrite bytes => exact absurd rfl (hwrite bytes)
  | busRead =>
    cases h
    exact hempty
  | mainLoop ms =>
    rcases mainStep_mbox h with hsame | ⟨-, hdrained⟩
    · rw [hsame, hempty]
    · rw [hdrained]

/-- Settles O21, by induction on the acts: each of them keeps an empty mailbox empty. -/
theorem emptyMailboxStaysEmptyWithoutAWrite : Obligations.EmptyMailboxStaysEmptyWithoutAWrite := by
  intro es
  induction es with
  | nil =>
    intro s t hempty _ h
    cases h
    exact hempty
  | cons e es ih =>
    intro s t hempty hwrites h
    obtain ⟨hwrite, hrest⟩ := List.forall_mem_cons.mp hwrites
    obtain ⟨u, hu, ht⟩ := andThen_eq_next.mp h
    exact ih u t (perform_keeps_empty_mailbox hempty hwrite hu) hrest ht

end Sys2Proof.Machine
end

section
/-! PROOF. Encoder, decoder and parse loop agree (R49 to R58, R91): a command decodes from its encoding and from nothing
else, and an assembled transaction parses to its commands. -/

namespace Sys2Proof

/-! ## The encoding of a command by its mnemonic -/

/-- A command is its mnemonic with its payload. -/
theorem Instr.exists_withPayload (i : Instr) : ∃ m p, i = Mnemonic.withPayload m p := by
  cases i with
  | stopBoth => exact ⟨.stopBoth, 0, rfl⟩
  | stopLeft => exact ⟨.stopLeft, 0, rfl⟩
  | stopRight => exact ⟨.stopRight, 0, rfl⟩
  | fwdBoth p => exact ⟨.fwdBoth, p, rfl⟩
  | fwdLeft p => exact ⟨.fwdLeft, p, rfl⟩
  | fwdRight p => exact ⟨.fwdRight, p, rfl⟩
  | revBoth p => exact ⟨.revBoth, p, rfl⟩
  | revLeft p => exact ⟨.revLeft, p, rfl⟩
  | revRight p => exact ⟨.revRight, p, rfl⟩

/-- A command is its code, and for format C2 then its payload (R49). -/
theorem encode_withPayload (c : CmdCode) (m : Mnemonic) (p : Byte) :
    encode c (m.withPayload p) = c.code m :: if m.hasPayload then [p] else [] := by
  cases m <;> rfl

/-- Format C2: two bytes (R49). -/
theorem encode_of_payload {m : Mnemonic} (h : m.hasPayload = true) (c : CmdCode) (p : Byte) :
    encode c (m.withPayload p) = [c.code m, p] := by
  rw [encode_withPayload, if_pos h]

/-- Format C1: one byte (R49). -/
theorem encode_of_stop {m : Mnemonic} (h : m.hasPayload = false) (c : CmdCode) (p : Byte) :
    encode c (m.withPayload p) = [c.code m] := by
  rw [encode_withPayload, h, if_neg Bool.false_ne_true]

/-- A STOP has no operand (R49). -/
theorem Mnemonic.withPayload_of_stop {m : Mnemonic} (h : m.hasPayload = false) (p : Byte) :
    m.withPayload p = m.withPayload 0 := by
  have hstored : m.withPayload (if m.hasPayload then p else 0) = m.withPayload p := by cases m <;> rfl
  rw [← hstored, h, if_neg Bool.false_ne_true]

/-! ## The decoder, case by case -/

section
variable {c : CmdCode} {b : Byte} {m : Mnemonic}

theorem decode_of_payload (hb : c.find b = some m) (hm : m.hasPayload = true) (p : Byte) (rest : List Byte) :
    decode c (b :: p :: rest) = .command (m.withPayload p) rest := by
  simp only [decode, hb, hm, if_true]

theorem decode_of_truncated (hb : c.find b = some m) (hm : m.hasPayload = true) : decode c [b] = .truncated m := by
  simp only [decode, hb, hm, if_true]

theorem decode_of_stop (hb : c.find b = some m) (hm : m.hasPayload = false) (rest : List Byte) :
    decode c (b :: rest) = .command (m.withPayload 0) rest := by
  simp only [decode, hb, hm, Bool.false_eq_true, if_false]

theorem decode_of_unrecognised (hb : c.find b = none) (rest : List Byte) :
    decode c (b :: rest) = .unrecognised b rest := by
  simp only [decode, hb]

end

/-- `d` accounts for the bytes it was decoded from: the encoding of a command, a byte of no command, a lone opcode that
wants a payload, or no byte at all, and then the rest. -/
def Decoded.AccountsFor (c : CmdCode) (bytes : List Byte) : Decoded → Prop
  | .command i rest => bytes = encode c i ++ rest
  | .unrecognised b rest => bytes = b :: rest ∧ c.bytes.contains b = false
  | .truncated m => bytes = [c.code m] ∧ m.hasPayload = true
  | .empty => bytes = []

/-- Whatever the decoder answers accounts for the bytes it was given, under every `CMD_CODE`. -/
theorem decode_accountsFor (c : CmdCode) (bytes : List Byte) : (decode c bytes).AccountsFor c bytes := by
  cases bytes with
  | nil => exact rfl
  | cons b rest =>
    cases hb : c.find b with
    | none =>
      rw [decode_of_unrecognised hb]
      exact ⟨rfl, CmdCode.find_eq_none.mp hb⟩
    | some m =>
      obtain rfl := CmdCode.code_of_find hb
      cases hm : m.hasPayload with
      | false =>
        rw [decode_of_stop hb hm, Decoded.AccountsFor, encode_of_stop hm, List.singleton_append]
      | true =>
        cases rest with
        | nil =>
          rw [decode_of_truncated hb hm]
          exact ⟨rfl, hm⟩
        | cons p rest =>
          rw [decode_of_payload hb hm, Decoded.AccountsFor, encode_of_payload hm, List.cons_append,
            List.singleton_append]

/-- Under an injective map a command decodes from its encoding, whatever follows (R49, R50). -/
theorem decode_encode {c : CmdCode} (h : c.injective = true) (i : Instr) (rest : List Byte) :
    decode c (encode c i ++ rest) = .command i rest := by
  obtain ⟨m, p, rfl⟩ := i.exists_withPayload
  have hb := CmdCode.find_code h m
  cases hm : m.hasPayload with
  | false =>
    rw [encode_of_stop hm, List.singleton_append, decode_of_stop hb hm, Mnemonic.withPayload_of_stop hm p]
  | true =>
    rw [encode_of_payload hm, List.cons_append, List.singleton_append, decode_of_payload hb hm]

/-- Settles O2, format by format: the opcode is found as its own command, and a payload is taken as it is. -/
theorem decodeOfEncodeIsTheCommand : Obligations.DecodeOfEncodeIsTheCommand :=
  fun _ i rest hinj _ => decode_encode hinj i rest

/-- Settles O3: the decoder's answer accounts for its bytes. -/
theorem decodedBytesAreTheEncoding : Obligations.DecodedBytesAreTheEncoding := by
  intro c bytes i rest h
  have haccounts := decode_accountsFor c bytes
  rwa [h] at haccounts

/-- Settles O1: the nine rows are the encodings under the default map, and 0x09 and 0xFF are found as no command. -/
theorem tableWordsDecodeToTheirCommands : Obligations.TableWordsDecodeToTheirCommands := by
  intro p rest
  have row := fun i => decode_encode (c := CmdCode.listingOrder) (by decide) i rest
  exact ⟨row .stopBoth, row .stopLeft, row .stopRight, row (.fwdBoth p), row (.fwdLeft p), row (.fwdRight p),
    row (.revBoth p), row (.revLeft p), row (.revRight p), decode_of_unrecognised (by decide) rest,
    decode_of_unrecognised (by decide) rest⟩

/-! ## The parse loop over a stream -/

/-- The loop takes a whole command at a time (R91). -/
theorem parse_encode_append {c : CmdCode} (h : c.injective = true) (i : Instr) (rest : List Byte) :
    parse c (encode c i ++ rest) = i :: parse c rest := by
  rw [parse_eq_decode, decode_encode h]

/-- A transaction of exactly one command parses to it. -/
theorem parse_encode {c : CmdCode} (h : c.injective = true) (i : Instr) : parse c (encode c i) = [i] := by
  simpa using parse_encode_append h i []

/-- A lone opcode that wants a payload names no complete command (R56). -/
theorem parse_truncated {c : CmdCode} (h : c.injective = true) {m : Mnemonic} (hm : m.hasPayload = true) :
    parse c [c.code m] = [] := by
  rw [parse_eq_decode, decode_of_truncated (CmdCode.find_code h m) hm]

/-- A raw byte of a stream is none of the nine codes (R58). -/
theorem StreamItem.wellFormed_raw {c : CmdCode} {b : Byte} :
    (StreamItem.raw b).wellFormed c = true ↔ c.bytes.contains b = false := by
  rw [StreamItem.wellFormed, Bool.not_eq_true']

theorem assemble_cons (c : CmdCode) (x : StreamItem) (items : List StreamItem) :
    assemble c (x :: items) = x.bytes c ++ assemble c items := List.flatMap_cons

/-- The commands of a stream come before those of what follows it: no item reads into the next. -/
theorem parse_assemble_append {c : CmdCode} (h : c.injective = true) (items : List StreamItem)
    (hwf : ∀ x ∈ items, x.wellFormed c = true) (rest : List Byte) :
    parse c (assemble c items ++ rest) = commandsOf items ++ parse c rest := by
  induction items with
  | nil => rfl
  | cons x items ih =>
    obtain ⟨hx, hitems⟩ := List.forall_mem_cons.mp hwf
    rw [assemble_cons, List.append_assoc]
    cases x with
    | command i => rw [StreamItem.bytes, parse_encode_append h, ih hitems, commandsOf, List.cons_append]
    | raw b =>
      rw [StreamItem.bytes, List.singleton_append, parse_unrecognised (StreamItem.wellFormed_raw.mp hx), ih hitems,
        commandsOf]

/-- Settles O4, by induction on the items. -/
theorem parseOfAssembledStream : Obligations.ParseOfAssembledStream := by
  intro c items hinj hwf
  simpa using parse_assemble_append hinj items hwf []

/-! ## Every byte list as a stream -/

/-- `bytes` is a stream of items that carries the commands `is`, with at most one truncated opcode at its end. -/
def IsStreamOf (c : CmdCode) (bytes : List Byte) (is : List Instr) : Prop :=
  ∃ (items : List StreamItem) (tail : List Byte),
    (∀ x ∈ items, x.wellFormed c = true) ∧ bytes = assemble c items ++ tail ∧ is = commandsOf items ∧
    (tail = [] ∨ ∃ m : Mnemonic, m.hasPayload = true ∧ tail = [c.code m])

section
variable {c : CmdCode} {bytes : List Byte} {is : List Instr}

theorem IsStreamOf.tail {tail : List Byte} (h : tail = [] ∨ ∃ m : Mnemonic, m.hasPayload = true ∧ tail = [c.code m]) :
    IsStreamOf c tail [] :=
  ⟨[], tail, nofun, rfl, rfl, h⟩

theorem IsStreamOf.command (h : IsStreamOf c bytes is) (i : Instr) : IsStreamOf c (encode c i ++ bytes) (i :: is) := by
  obtain ⟨items, tail, hwf, rfl, rfl, htail⟩ := h
  have hi : (StreamItem.command i).wellFormed c = true := by cases i <;> rfl
  exact ⟨.command i :: items, tail, List.forall_mem_cons.mpr ⟨hi, hwf⟩,
    by rw [assemble_cons, StreamItem.bytes, List.append_assoc], rfl, htail⟩

theorem IsStreamOf.raw (h : IsStreamOf c bytes is) {b : Byte} (hb : c.bytes.contains b = false) :
    IsStreamOf c (b :: bytes) is := by
  obtain ⟨items, tail, hwf, rfl, rfl, htail⟩ := h
  exact ⟨.raw b :: items, tail, List.forall_mem_cons.mpr ⟨StreamItem.wellFormed_raw.mpr hb, hwf⟩,
    by rw [assemble_cons, StreamItem.bytes, List.append_assoc, List.singleton_append], rfl, htail⟩

end

/-- A command has at least its opcode. -/
theorem length_encode_pos (c : CmdCode) (i : Instr) : 0 < (encode c i).length := by
  cases i <;> exact Nat.succ_pos _

/-- The loop reads every byte list as a stream, taking what the decoder accounts for at its head (R91). -/
theorem isStreamOf_parse (c : CmdCode) (bytes : List Byte) : IsStreamOf c bytes (parse c bytes) := by
  have haccounts := decode_accountsFor c bytes
  rw [parse_eq_decode]
  generalize decode c bytes = d at haccounts ⊢
  cases d with
  | command i rest =>
    obtain rfl : bytes = encode c i ++ rest := haccounts
    have hshorter : rest.length < (encode c i ++ rest).length := by
      rw [List.length_append]
      exact Nat.lt_add_of_pos_left (length_encode_pos c i)
    exact (isStreamOf_parse c rest).command i
  | unrecognised b rest =>
    obtain ⟨rfl, hb⟩ := haccounts
    exact (isStreamOf_parse c rest).raw hb
  | truncated m =>
    obtain ⟨rfl, hm⟩ := haccounts
    exact .tail (.inr ⟨m, hm, rfl⟩)
  | empty => exact .tail (.inl haccounts)
termination_by bytes.length

/-- Settles O5, by recursion on what the decoder leaves. -/
theorem everyByteListIsAStream : Obligations.EveryByteListIsAStream := isStreamOf_parse

/-! ## The bytes that name no command -/

/-- An injective map uses nine of the 256 byte values. -/
theorem CmdCode.length_filter_codes {c : CmdCode} (h : c.injective = true) :
    ((List.range 256).filter (fun n => c.bytes.contains (BitVec.ofNat 8 n))).length = 9 := by
  have hnodup : c.bytes.Nodup := of_decide_eq_true h
  have hperm : ((List.range 256).filter (fun n => c.bytes.contains (BitVec.ofNat 8 n))).Perm
      (c.bytes.map BitVec.toNat) := by
    rw [List.perm_ext_iff_of_nodup (List.nodup_range.filter _)
      (hnodup.map fun _ _ => BitVec.eq_of_toNat_eq)]
    intro n
    rw [List.mem_filter, List.mem_range, List.contains_iff_mem, List.mem_map]
    constructor
    · rintro ⟨hn, hmem⟩
      exact ⟨_, hmem, Nat.mod_eq_of_lt hn⟩
    · rintro ⟨b, hmem, rfl⟩
      rw [BitVec.ofNat_toNat, BitVec.setWidth_eq]
      exact ⟨b.isLt, hmem⟩
  rw [hperm.length_eq]
  rfl

/-- The other 247 values name no command (R54). -/
theorem CmdCode.length_filter_unassigned {c : CmdCode} (h : c.injective = true) :
    ((List.range 256).filter (fun n => !c.bytes.contains (BitVec.ofNat 8 n))).length = 247 := by
  have hsplit := List.length_eq_length_filter_add (l := List.range 256)
    (fun n => c.bytes.contains (BitVec.ofNat 8 n))
  rw [List.length_range, CmdCode.length_filter_codes h] at hsplit
  omega

end Sys2Proof
end

section
/-! PROOF. What a write transaction does, by the commands it parses to, and the factoring of a command into the selector,
the action and the payload it leaves in the mailbox (R51, R52, R54, R56, R59). -/

namespace Sys2Proof.Machine

/-! ## Transactions that parse alike -/

/-- The commands alone decide what a transaction does (R91). -/
theorem busWrite_congr {bytes bytes' : List Byte} {s : State}
    (h : parse s.cfg.cmdCode bytes = parse s.cfg.cmdCode bytes') : busWrite bytes s = busWrite bytes' s := by
  rw [busWrite, busWrite, h]

/-- A transaction without a complete command is a no-op. -/
theorem busWrite_of_parse_nil {bytes : List Byte} {s : State} (h : parse s.cfg.cmdCode bytes = []) :
    busWrite bytes s = .next s := by
  rw [busWrite, h, runCommands]

/-- Settles O6: the loop skips the byte, wherever an opcode is expected. -/
theorem unrecognisedByteIsANoOp : Obligations.UnrecognisedByteIsANoOp := by
  intro s hinj
  refine ⟨CmdCode.length_filter_unassigned hinj, fun items b rest hwf hb =>
    ⟨busWrite_congr ?_, busWrite_of_parse_nil ?_⟩⟩
  · rw [parse_assemble_append hinj items hwf, parse_assemble_append hinj items hwf, parse_unrecognised hb]
  · rw [parse_unrecognised hb, parse_nil]

/-- Settles O7: the loop ends at a lone opcode that wants a payload, and at the end of the bytes. -/
theorem truncatedCommandIsDiscarded : Obligations.TruncatedCommandIsDiscarded := by
  intro s items m hinj hwf hm
  have hlone := parse_truncated hinj hm
  refine ⟨busWrite_congr ?_, busWrite_of_parse_nil hlone, busWrite_of_parse_nil (parse_nil _)⟩
  rw [parse_assemble_append hinj items hwf, hlone, List.append_nil, parseOfAssembledStream _ items hinj hwf]

/-! ## A command as selector, action and payload -/

/-- The selector in a command's name (R50, R51). -/
def mnemonicSel : Mnemonic → Sel
  | .stopBoth | .fwdBoth | .revBoth => .both
  | .stopLeft | .fwdLeft | .revLeft => .left
  | .stopRight | .fwdRight | .revRight => .right

/-- The action in a command's name (R50, R51). -/
def mnemonicAct : Mnemonic → Act
  | .stopBoth | .stopLeft | .stopRight => .stop
  | .fwdBoth | .fwdLeft | .fwdRight => .fwd
  | .revBoth | .revLeft | .revRight => .rev

/-- A command writes the selector and the action of its name, and its payload or 0 (the "Decode" lines of R92 to R100). -/
theorem exec_withPayload (m : Mnemonic) (p : Byte) (s : State) :
    exec (m.withPayload p) s =
      .next (mboxWrite (mnemonicSel m) (mnemonicAct m) (if m.hasPayload then p else 0) s) := by
  cases m <;> rfl

/-- The default numbering is by action, then by selector (R51). -/
theorem listingOrder_code (m : Mnemonic) :
    CmdCode.listingOrder.code m =
      BitVec.ofNat 8 (3 * (mnemonicAct m).bits.toNat + (mnemonicSel m).bits.toNat) := by
  cases m <;> rfl

/-- Settles O8, by the mnemonic of the command. -/
theorem defaultOpcodeFactors : Obligations.DefaultOpcodeFactors := by
  intro i s
  obtain ⟨m, p, rfl⟩ := i.exists_withPayload
  exact ⟨_, exec_withPayload m p s, by rw [encode_withPayload, List.head?_cons, listingOrder_code, mboxWrite_mbox]⟩

/-! ## The request at DRAIN -/

/-- In phase DRAIN the turn of the main loop drains the mailbox just written (R109). -/
theorem mainStep_mboxWrite {s : State} (h : s.mlPhase = .drain) (sel : Sel) (act : Act) (p : Byte) (ms : Nat) :
    mainStep ms (mboxWrite sel act p s) = .next (drain (mboxWrite sel act p s)) :=
  mainStep_of_drain (enabledMainStep_eq_drain.mpr (by rw [mboxWrite_mlPhase, h])) ms

/-- The latches after the drain of a mailbox just written (R103, R104). -/
theorem drain_mboxWrite_pendSet_get (sel : Sel) (act : Act) (p : Byte) (s : State) (w : Wheel) :
    (drain (mboxWrite sel act p s)).pendSet.get w =
      if sel.addresses w = true then { valid := true, s := speedOf act p } else s.pendSet.get w := by
  rw [drain_pendSet_get]
  simp

/-- The 0 that a STOP has for a payload is the request of any payload under Stop (R104). -/
theorem speedOf_storedPayload (m : Mnemonic) (p : Byte) :
    speedOf (mnemonicAct m) (if m.hasPayload then p else 0) = speedOf (mnemonicAct m) p := by
  cases m <;> rfl

/-- Settles O13: the loop takes the byte after a C2 opcode as its payload, the mailbox holds it as it is, and the sign
comes in with `speedOf` at DRAIN. -/
theorem payloadIsAnUnsignedMagnitude : Obligations.PayloadIsAnUnsignedMagnitude := by
  intro s m p rest ms hinj hphase
  refine ⟨fun hm => ?_, mboxWrite (mnemonicSel m) (mnemonicAct m) (if m.hasPayload then p else 0) s, _, ?_, rfl, rfl,
    mainStep_mboxWrite hphase _ _ _ ms, fun w hw => ?_⟩
  · simpa only [encode_of_payload hm, List.cons_append, List.nil_append] using
      parse_encode_append hinj (m.withPayload p) rest
  · exact (busWrite_of_parse_singleton (parse_encode hinj _)).trans (exec_withPayload m p s)
  · rw [mboxWrite_mbox] at hw ⊢
    rw [drain_mboxWrite_pendSet_get, if_pos hw, speedOf_storedPayload]
    obtain ⟨hlow, hhigh⟩ := speedOf_bounds (mnemonicAct m) p
    exact ⟨rfl, hlow, hhigh, rfl⟩

/-- A payload of 0 asks for speed 0 under every action (R59, R104). -/
theorem speedOf_zero (act : Act) : speedOf act 0 = 0 := by
  cases act <;> rfl

/-- Commands with the same selector and payload 0 are drained to the same requests, whatever their actions (R59). -/
theorem drained_alike_of_zero_payload {m n : Mnemonic} (hsel : mnemonicSel m = mnemonicSel n) {s : State}
    (hphase : s.mlPhase = .drain) (ms : Nat) :
    ∃ t u, andThen (exec (m.withPayload 0) s) (mainStep ms) = .next t ∧
      andThen (exec (n.withPayload 0) s) (mainStep ms) = .next u ∧ t.pendSet = u.pendSet ∧ t.drive = u.drive := by
  simp only [exec_withPayload, ite_self, andThen_next]
  refine ⟨_, _, mainStep_mboxWrite hphase _ _ _ ms, mainStep_mboxWrite hphase _ _ _ ms,
    PerWheel.ext_get fun w => ?_, ?_⟩
  · rw [drain_mboxWrite_pendSet_get, drain_mboxWrite_pendSet_get, speedOf_zero, speedOf_zero, hsel]
  · rw [drain_drive, drain_drive, mboxWrite_drive, mboxWrite_drive]

/-- Settles O20: both commands of a pair have the same selector and the payload 0. -/
theorem zeroPayloadActsAsStop : Obligations.ZeroPayloadActsAsStop := by
  intro s ms hphase x hx
  simp only [List.mem_cons, List.not_mem_nil, or_false] at hx
  rcases hx with rfl | rfl | rfl | rfl | rfl | rfl
  · exact drained_alike_of_zero_payload (m := .fwdBoth) (n := .stopBoth) rfl hphase ms
  · exact drained_alike_of_zero_payload (m := .revBoth) (n := .stopBoth) rfl hphase ms
  · exact drained_alike_of_zero_payload (m := .fwdLeft) (n := .stopLeft) rfl hphase ms
  · exact drained_alike_of_zero_payload (m := .revLeft) (n := .stopLeft) rfl hphase ms
  · exact drained_alike_of_zero_payload (m := .fwdRight) (n := .stopRight) rfl hphase ms
  · exact drained_alike_of_zero_payload (m := .revRight) (n := .stopRight) rfl hphase ms

end Sys2Proof.Machine
end

section
/-! PROOF. The TickSampler at work: one edge, one turn of the encoder interrupt, a run of ticks, and the average of the
ring (R62 to R68). -/

namespace Sys2Proof.Machine

/-! ## One edge and one turn of the interrupt -/

/-- The last sampler written stands. -/
@[simp] theorem State.setSampler_setSampler (s : State) (w : Wheel) (x y : Sampler) :
    (s.setSampler w x).setSampler w y = s.setSampler w y := by
  simp [State.setSampler]

/-- An edge that meets a pending one is lost in it (R62). -/
theorem edge_of_pending {w : Wheel} {s : State} (h : (s.sampler.get w).tickPend = true) : edge w s = s := by
  rw [edge_is_sampler_write, ← h, State.setSampler_self]

/-- Settles O22: after an edge one is pending, so a second changes nothing. -/
theorem edgeIsLatchedAndMerged : Obligations.EdgeIsLatchedAndMerged := by
  intro s w
  refine ⟨rfl, fun h => congrArg _ (edge_of_pending h), congrArg _ (edge_of_pending ?_)⟩
  simp [edge]

/-- The interrupt is enabled by a pending edge on an unmasked wheel (R63). -/
theorem Sampler.tickEnabled_eq_true {x : Sampler} : x.tickEnabled = true ↔ x.tickPend = true ∧ x.tickMask = false := by
  simp [Sampler.tickEnabled]

theorem Sampler.tickEnabled_eq_false {x : Sampler} : x.tickEnabled = false ↔ x.tickPend = false ∨ x.tickMask = true := by
  cases hp : x.tickPend <;> simp [Sampler.tickEnabled, hp]

/-- Settles O24, by the test that TICK makes. -/
theorem disabledTickChangesNothing : Obligations.DisabledTickChangesNothing :=
  fun _ _ us h => congrArg _ (tick_of_disabled (Sampler.tickEnabled_eq_false.mpr h) us)

/-- Settles O23: a taken turn is one `Sampler.record`. -/
theorem tickRecordsTheDelta : Obligations.TickRecordsTheDelta := by
  intro s w us hpend hmask
  have htick := tick_of_enabled (Sampler.tickEnabled_eq_true.mpr ⟨hpend, hmask⟩) us
  refine ⟨_, congrArg Host.Outcome.next htick, ?_⟩
  simp only [State.setSampler_sampler, PerWheel.get_set_same, Sampler.record_buf, Sampler.record_idx,
    Sampler.record_last, Sampler.record_tickPend, Sampler.record_tickMask, if_true]
  exact ⟨subMod_cast _ _ _, fun i hi => if_neg hi, by simp [Fin.val_add], rfl, trivial, hmask, trivial⟩

/-! ## A run of ticks -/

/-- The sampler after TICKs at the true microsecond counts `us`, one after another. -/
def Sampler.recordAll (cfg : Cfg) (x : Sampler) (us : List Nat) : Sampler :=
  us.foldl (fun y t => y.record cfg (inUs cfg t)) x

@[simp] theorem Sampler.recordAll_nil (cfg : Cfg) (x : Sampler) : x.recordAll cfg [] = x := rfl

@[simp] theorem Sampler.recordAll_cons (cfg : Cfg) (x : Sampler) (t : Nat) (us : List Nat) :
    x.recordAll cfg (t :: us) = (x.record cfg (inUs cfg t)).recordAll cfg us := rfl

theorem Sampler.recordAll_append (cfg : Cfg) (x : Sampler) (us vs : List Nat) :
    x.recordAll cfg (us ++ vs) = (x.recordAll cfg us).recordAll cfg vs := List.foldl_append

/-- An edge and its service are one TICK, whether or not an edge was pending before. -/
theorem tick_edge {w : Wheel} {s : State} (h : (s.sampler.get w).tickMask = false) (us : Nat) :
    tick w us (edge w s) = s.setSampler w ((s.sampler.get w).record s.cfg (inUs s.cfg us)) := by
  have henabled : ((edge w s).sampler.get w).tickEnabled = true := by simp [edge, Sampler.tickEnabled, h]
  rw [tick_of_enabled henabled, edge_is_sampler_write, State.setSampler_setSampler, State.setSampler_sampler,
    PerWheel.get_set_same]
  rfl

/-- On an unmasked wheel a run of ticks records them all, and touches nothing else. -/
theorem performAll_ticksOf (w : Wheel) (us : List Nat) : ∀ {s : State}, (s.sampler.get w).tickMask = false →
    performAll (ticksOf w us) s = .next (s.setSampler w ((s.sampler.get w).recordAll s.cfg us)) := by
  induction us with
  | nil =>
    intro s _
    rw [Sampler.recordAll_nil, State.setSampler_self]
    rfl
  | cons t us ih =>
    intro s h
    have hfirst : performAll (ticksOf w (t :: us)) s = performAll (ticksOf w us) (tick w t (edge w s)) := rfl
    rw [hfirst, tick_edge h, ih (by simpa using h), State.setSampler_setSampler, State.setSampler_sampler,
      PerWheel.get_set_same]
    rfl

/-- Settles O25: the five ticks write five different places, so no delta is overwritten, and `idx` is back where it was. -/
theorem fiveTicksFillTheRing : Obligations.FiveTicksFillTheRing := by
  intro s w t₁ t₂ t₃ t₄ t₅ h
  refine ⟨_, performAll_ticksOf w _ h, ?_⟩
  have hidx : ((s.sampler.get w).recordAll s.cfg [t₁, t₂, t₃, t₄, t₅]).idx = (s.sampler.get w).idx := by
    simp [add_assoc]
  simp only [State.setSampler_sampler, PerWheel.get_set_same, hidx]
  simp [Sampler.record_buf, add_assoc, -Fin.getElem_fin]

/-! ## The average -/

/-- AVG gives the floor of a fifth of the exact sum (R65). -/
theorem avg_fst (w : Wheel) (s : State) : (avg w s).1 = ringSum (s.sampler.get w).buf / 5 := by
  rw [avg_eq, ringAverage]

/-- The exact sum of five entries below a bound is below five times the bound. -/
theorem ringSum_lt {buf : Vector Nat 5} {b : Nat} (h : ∀ i : Fin 5, buf[i] < b) : ringSum buf < 5 * b := by
  have h₀ : buf[0] < b := h 0
  have h₁ : buf[1] < b := h 1
  have h₂ : buf[2] < b := h 2
  have h₃ : buf[3] < b := h 3
  have h₄ : buf[4] < b := h 4
  unfold ringSum
  omega

/-- Settles O27: AVG is the floor of a fifth of the exact sum, and lifts the mask that it set itself. -/
theorem averageIsTheFloorOfTheExactSum : Obligations.AverageIsTheFloorOfTheExactSum := by
  intro s w
  refine ⟨avg_fst w s, ?_, fun h => ?_, fun h => by rw [avg_of_unmasked h]⟩
  · rw [avg_eq]
    exact ringAverage_eq_zero
  · rw [avg_fst]
    exact Nat.div_lt_of_lt_mul (ringSum_lt h)

/-! ## Identical ticks from reset -/

/-- The difference of two readings of a counter of `n` bits that moved on by an `n`-bit value is that value. -/
theorem subMod_add_left {n d : Nat} (h : d < 2 ^ n) (a : Nat) : subMod n ((a + d) % 2 ^ n) (a % 2 ^ n) = d := by
  have hcast : (subMod n ((a + d) % 2 ^ n) (a % 2 ^ n) : Int) = d := by
    rw [subMod_cast, Int.natCast_emod, Int.natCast_emod, ← Int.sub_emod, Nat.cast_add, add_sub_cancel_left]
    exact_mod_cast Nat.mod_eq_of_lt h
  exact_mod_cast hcast

/-- The sampler after `k` ticks from reset, each `d` apart: the first `k` places of the ring hold `d`. -/
structure Sampler.IdenticalTicks (cfg : Cfg) (d k : Nat) (x : Sampler) : Prop where
  idx : x.idx.val = k % 5
  last : x.last = inUs cfg (k * d)
  ring : ∀ i : Fin 5, x.buf[i] = if i.val < k then d else 0

/-- Reset leaves `last = 0`, as a tick at 0 would (decision D10, log 8). -/
theorem Sampler.IdenticalTicks.reset (cfg : Cfg) (d : Nat) : Sampler.reset.IdenticalTicks cfg d 0 where
  idx := rfl
  last := by simp [inUs, Sampler.reset]
  ring i := by fin_cases i <;> rfl

/-- The next tick has delta `d` again, and fills the next place of the ring or writes `d` over `d`. -/
theorem Sampler.IdenticalTicks.record {cfg : Cfg} {d k : Nat} {x : Sampler} (h : x.IdenticalTicks cfg d k)
    (hd : d < 2 ^ cfg.tw) : (x.record cfg (inUs cfg ((k + 1) * d))).IdenticalTicks cfg d (k + 1) where
  idx := by simp [Fin.val_add, h.idx]
  last := rfl
  ring i := by
    have hdelta : tickDelta cfg (inUs cfg ((k + 1) * d)) x.last = d := by
      rw [h.last, Nat.succ_mul]
      exact subMod_add_left hd (k * d)
    have hplace : i = x.idx ↔ i.val = k % 5 := by rw [Fin.ext_iff, h.idx]
    simp only [Sampler.record_buf, hdelta, h.ring, hplace]
    split_ifs <;> omega

theorem Sampler.IdenticalTicks.recordAll {cfg : Cfg} {d : Nat} (hd : d < 2 ^ cfg.tw) (k : Nat) :
    (Sampler.reset.recordAll cfg ((List.range k).map fun j => (j + 1) * d)).IdenticalTicks cfg d k := by
  induction k with
  | zero => exact .reset cfg d
  | succ k ih =>
    rw [List.range_succ, List.map_append, Sampler.recordAll_append]
    exact ih.record hd

/-- The machine runs `k` identical ticks from reset. -/
theorem run_of_identical_ticks {cfg : Cfg} {d : Nat} (hd : d < 2 ^ cfg.tw) (w : Wheel) (k : Nat) :
    ∃ t, performAll (ticksOf w ((List.range k).map fun j => (j + 1) * d)) (State.resetWith cfg) = .next t ∧
      (t.sampler.get w).IdenticalTicks cfg d k := by
  have hreset : (State.resetWith cfg).sampler.get w = Sampler.reset := by cases w <;> rfl
  refine ⟨_, performAll_ticksOf w _ (by rw [hreset]; rfl), ?_⟩
  rw [State.setSampler_sampler, PerWheel.get_set_same, hreset]
  exact .recordAll hd k

/-- Of `k` identical ticks the ring holds the last five (R14). -/
theorem Sampler.IdenticalTicks.ringSum_eq {cfg : Cfg} {d k : Nat} {x : Sampler} (h : x.IdenticalTicks cfg d k) :
    ringSum x.buf = min k 5 * d := by
  have h₀ : x.buf[0] = if 0 < k then d else 0 := h.ring 0
  have h₁ : x.buf[1] = if 1 < k then d else 0 := h.ring 1
  have h₂ : x.buf[2] = if 2 < k then d else 0 := h.ring 2
  have h₃ : x.buf[3] = if 3 < k then d else 0 := h.ring 3
  have h₄ : x.buf[4] = if 4 < k then d else 0 := h.ring 4
  rw [ringSum, h₀, h₁, h₂, h₃, h₄]
  rcases k with _ | _ | _ | _ | _ | k <;> simp <;> omega

/-- Settles O26: the ring holds `d` in as many places as there were ticks, up to five. -/
theorem averageOfIdenticalTicks : Obligations.AverageOfIdenticalTicks := by
  intro cfg w d k hd
  obtain ⟨t, hrun, hticks⟩ := run_of_identical_ticks hd w k
  refine ⟨t, hrun, fun hk => ?_, fun hk => ?_⟩
  · rw [avg_fst, hticks.ringSum_eq, min_eq_left hk.le]
  · rw [avg_fst, hticks.ringSum_eq, min_eq_right hk, Nat.mul_div_cancel_left d (by omega)]

end Sys2Proof.Machine
end

section
/-! PROOF. AVG and the handlers that fall inside it: they do under the mask what they do without it, but for the masked
interrupt, which waits (R66). -/

namespace Sys2Proof

/-- Writes for different wheels may change places. -/
theorem PerWheel.set_comm {α : Type} (x : PerWheel α) {v w : Wheel} (h : v ≠ w) (a b : α) :
    (x.set w a).set v b = (x.set v b).set w a := by
  cases v <;> cases w
  · exact absurd rfl h
  · rfl
  · rfl
  · exact absurd rfl h

namespace Machine

/-! ## Under the mask -/

theorem State.setSampler_comm (s : State) {v w : Wheel} (h : v ≠ w) (x y : Sampler) :
    (s.setSampler w x).setSampler v y = (s.setSampler v y).setSampler w x := by
  simp only [State.setSampler, PerWheel.set_comm _ h]

section
variable (w : Wheel) (s : State)

/-- The mask of one wheel leaves the sampler of the other. -/
theorem avgMask_sampler_get_of_ne {v : Wheel} (h : v ≠ w) : (avgMask w s).sampler.get v = s.sampler.get v :=
  PerWheel.get_set_of_ne _ _ h

theorem tick_avgMask_of_ne {v : Wheel} (h : v ≠ w) (us : Nat) :
    tick v us (avgMask w s) = avgMask w (tick v us s) := by
  cases he : (s.sampler.get v).tickEnabled with
  | true =>
    rw [tick_of_enabled (by rwa [avgMask_sampler_get_of_ne w s h]), tick_of_enabled he, avgMask_sampler_get_of_ne w s h,
      avgMask, avgMask, State.setSampler_comm _ h, State.setSampler_sampler, PerWheel.get_set_of_ne _ _ h.symm]
    rfl
  | false => rw [tick_of_disabled he, tick_of_disabled (by rwa [avgMask_sampler_get_of_ne w s h])]

/-- An edge is latched under the mask as without it (R62). -/
theorem edge_avgMask (v : Wheel) : edge v (avgMask w s) = avgMask w (edge v s) := by
  by_cases h : v = w
  · subst h
    simp [edge, avgMask]
  · rw [edge, edge, avgMask_sampler_get_of_ne w s h, avgMask, avgMask, State.setSampler_comm _ h,
      State.setSampler_sampler, PerWheel.get_set_of_ne _ _ (Ne.symm h)]

end

/-- Commands see no mask. -/
theorem runCommands_avgMask (w : Wheel) (is : List Instr) : ∀ s,
    runCommands is (avgMask w s) = andThen (runCommands is s) fun t => .next (avgMask w t) := by
  induction is with
  | nil => exact fun _ => rfl
  | cons i is ih =>
    intro s
    obtain ⟨m, hm⟩ := exec_is_mbox_write i
    rw [runCommands, runCommands, hm, hm]
    exact ih (s.setMbox m)

/-- What may fall inside AVG, but for the masked interrupt, does the same under the mask as without it. -/
theorem perform_avgMask {e : Event} {w : Wheel} (he : e.isInterrupt = true) (hw : e.isTickOf w = false) (s : State) :
    perform e (avgMask w s) = andThen (perform e s) fun t => .next (avgMask w t) := by
  cases e with
  | reset => cases he
  | mainLoop ms => cases he
  | edge v => exact congrArg _ (edge_avgMask w s v)
  | tick v us => exact congrArg _ (tick_avgMask_of_ne w s (of_decide_eq_false hw) us)
  | busWrite bytes => exact runCommands_avgMask w _ s
  | busRead => rfl

/-- The masked interrupt is never taken (R63, R65). -/
theorem perform_avgMask_of_isTickOf {e : Event} {w : Wheel} (hw : e.isTickOf w = true) (s : State) :
    perform e (avgMask w s) = .next (avgMask w s) := by
  cases e with
  | tick v us =>
    obtain rfl : v = w := of_decide_eq_true hw
    have hmasked : ((avgMask v s).sampler.get v).tickMask = true := by simp [avgMask]
    exact disabledTickChangesNothing _ v us (.inr hmasked)
  | reset | edge | busWrite | busRead | mainLoop => cases hw

/-! ## What stays of the sampler -/

/-- Of the sampler of `w` a handler other than its own interrupt can have changed the pending edge alone. -/
theorem sampler_of_perform {e : Event} {w : Wheel} (he : e.isInterrupt = true) (hw : e.isTickOf w = false)
    {s t : State} (h : perform e s = .next t) :
    ∃ pend, t.sampler.get w = { s.sampler.get w with tickPend := pend } := by
  cases e with
  | reset => cases he
  | mainLoop ms => cases he
  | edge v =>
    cases h
    by_cases hv : w = v
    · subst hv
      exact ⟨true, PerWheel.get_set_same _ _ _⟩
    · exact ⟨_, PerWheel.get_set_of_ne _ _ hv⟩
  | tick v us =>
    obtain ⟨x, hx⟩ := tick_is_sampler_write v us s
    cases h
    rw [hx]
    exact ⟨_, PerWheel.get_set_of_ne _ _ (Ne.symm (of_decide_eq_false hw))⟩
  | busWrite bytes =>
    obtain ⟨m, hm⟩ := busWrite_is_mbox_write bytes s
    cases hm.symm.trans h
    exact ⟨_, rfl⟩
  | busRead =>
    cases h
    exact ⟨_, rfl⟩

/-! ## The acts between MASK and UNMASK -/

/-- The run under the mask follows the run without it in which the masked interrupt has no turns. -/
theorem performAll_avgMask (w : Wheel) (es : List Event) (hes : ∀ e ∈ es, e.isInterrupt = true) : ∀ s : State,
    ∃ u pend, performAll (es.filter fun e => !e.isTickOf w) s = .next u ∧
      performAll es (avgMask w s) = .next (avgMask w u) ∧
      u.sampler.get w = { s.sampler.get w with tickPend := pend } := by
  induction es with
  | nil => exact fun s => ⟨s, _, rfl, rfl, rfl⟩
  | cons e es ih =>
    intro s
    obtain ⟨he, hrest⟩ := List.forall_mem_cons.mp hes
    cases hw : e.isTickOf w with
    | true =>
      obtain ⟨u, pend, hfree, hmask, hu⟩ := ih hrest s
      exact ⟨u, pend, by rwa [List.filter_cons_of_neg (by simp [hw])],
        by rwa [performAll, perform_avgMask_of_isTickOf hw, andThen_next], hu⟩
    | false =>
      obtain ⟨_, _, _, hfirst⟩ := perform_interrupt he s
      obtain ⟨_, hs⟩ := sampler_of_perform he hw hfirst
      obtain ⟨u, pend, hfree, hmask, hu⟩ := ih hrest _
      refine ⟨u, pend, ?_, ?_, by rw [hu, hs]⟩
      · rwa [List.filter_cons_of_pos (by simp [hw]), performAll, hfirst, andThen_next]
      · rwa [performAll, perform_avgMask he hw, hfirst, andThen_next, andThen_next]

/-- The sum is not affected by the mask. -/
theorem avgSum_avgMask (w : Wheel) (s : State) : avgSum w (avgMask w s) = avgSum w s := by
  rw [avgSum, avgMask, State.setSampler_sampler, PerWheel.get_set_same, avgSum]

/-- Settles O28: the run without the mask leaves the ring and the mask of `w`, so MASK and UNMASK around its end state
are an AVG on an unmasked wheel, which changes nothing. -/
theorem averageIsAtomicUnderItsMask : Obligations.AverageIsAtomicUnderItsMask := by
  intro s w es hmask hes
  obtain ⟨u, pend, hfree, hmasked, hu⟩ := performAll_avgMask w es hes s
  refine ⟨avgMask w u, hmasked, ?_, PerWheel.get_set_same _ _ _, ?_⟩
  · rw [avgSum_avgMask, avgSum, hu, avgSum]
  · have hlifted : avgUnmask w (avgMask w u) = u := congrArg Prod.snd (avg_of_unmasked (by rw [hu]; exact hmask))
    rw [hlifted, hfree]

end Machine

end Sys2Proof
end

section
/-! PROOF. SETSPEED and its hold: which path a request takes, what completing it leaves, and how long the hold lasts. -/

namespace Sys2Proof.Machine

/-! ## Inside the hold -/

/-- Before the delay has elapsed, an act inside a hold changes samplers, the mailbox and the read port at most: DISPATCH
has SETTLE_WAIT enabled and no other main-loop step (R77, R127). -/
theorem perform_in_hold {e : Event} {s : State} (hphase : s.mlPhase = .dispatch) (hactive : s.settle.active = true)
    (hreset : e ≠ .reset)
    (hwait : ∀ ms, e = .mainLoop ms → settleElapsed s.cfg (inMs s.cfg ms) s.settle.t0 = false) :
    ∃ sampler mbox reads, perform e s = .next { s with sampler := sampler, mbox := mbox, reads := reads } := by
  rcases agent_cases e with rfl | ⟨ms, rfl⟩ | he
  · exact absurd rfl hreset
  · have henabled := enabledMainStep_eq_settleWait.mpr ⟨hphase, hactive⟩
    have hkept : settleWait ms s = .next s := settleWait_eq_next.mpr (.inl ⟨hwait ms rfl, rfl⟩)
    exact ⟨s.sampler, s.mbox, s.reads, (mainStep_of_settleWait henabled ms).trans hkept⟩
  · exact perform_interrupt he s

/-- A run of such acts changes samplers, the mailbox and the read port at most. -/
theorem performAll_in_hold (es : List Event) : ∀ {s : State}, s.mlPhase = .dispatch → s.settle.active = true →
    (∀ e ∈ es, e ≠ .reset) →
    (∀ ms, .mainLoop ms ∈ es → settleElapsed s.cfg (inMs s.cfg ms) s.settle.t0 = false) →
    ∃ sampler mbox reads, performAll es s = .next { s with sampler := sampler, mbox := mbox, reads := reads } := by
  induction es with
  | nil => exact fun {s} _ _ _ _ => ⟨s.sampler, s.mbox, s.reads, rfl⟩
  | cons e es ih =>
    intro s hphase hactive hreset hwait
    obtain ⟨hfirst, hrest⟩ := List.forall_mem_cons.mp hreset
    obtain ⟨sampler, mbox, reads, hu⟩ := perform_in_hold hphase hactive hfirst
      fun ms he => hwait ms (he ▸ List.mem_cons_self)
    obtain ⟨sampler', mbox', reads', ht⟩ := ih (s := { s with sampler := sampler, mbox := mbox, reads := reads })
      hphase hactive hrest fun ms hms => hwait ms (List.mem_cons_of_mem e hms)
    exact ⟨sampler', mbox', reads', by rw [performAll, hu, andThen_next, ht]⟩

/-- Settles O35, by induction on the acts: none of them reaches what the hold keeps. -/
theorem settleHoldLastsTheDelay : Obligations.SettleHoldLastsTheDelay := by
  intro es s hinv hactive hreset hwait
  have hphase := hinv.settle.phase hactive
  obtain ⟨sampler, mbox, reads, ht⟩ := performAll_in_hold es hphase hactive hreset hwait
  exact ⟨_, ht, rfl, rfl, rfl, hphase, rfl, hinv.settle.pwm hactive⟩

/-- The end of the hold as R77 writes it. -/
theorem settleElapsed_eq_true {cfg : Cfg} {now t0 : Nat} :
    settleElapsed cfg now t0 = true ↔ (cfg.settleDelay : Int) ≤ ((now : Int) - t0) % (2 ^ cfg.mw : Nat) := by
  rw [settleElapsed, decide_eq_true_iff, ← subMod_cast, Int.ofNat_le]

/-- Settles O31, by the one test of SETTLE_WAIT. -/
theorem settleWaitHoldsForTheDelay : Obligations.SettleWaitHoldsForTheDelay := by
  intro s ms hphase hactive
  have hstep : perform (.mainLoop ms) s = settleWait ms s :=
    mainStep_of_settleWait (enabledMainStep_eq_settleWait.mpr ⟨hphase, hactive⟩) ms
  rw [hstep]
  constructor
  · intro hbefore
    have hnot : settleElapsed s.cfg (inMs s.cfg ms) s.settle.t0 = false :=
      Bool.eq_false_iff.mpr fun h => not_le.mpr hbefore (settleElapsed_eq_true.mp h)
    exact settleWait_eq_next.mpr (.inl ⟨hnot, rfl⟩)
  · exact fun hafter => if_pos (settleElapsed_eq_true.mpr hafter)

/-! ## What completing a request and beginning a hold leave -/

/-- The PWM byte is the one after the direction byte (R23). -/
@[simp] theorem pwmOffset_ne_dirOffset (w : Wheel) : pwmOffset w ≠ dirOffset w := Nat.succ_ne_self _

section
variable {s : State} (hm : Memory.wf s.regmap = true) {w : Wheel} {a : Nat} (hdir : a ≠ dirOffset w)
  (hpwm : a ≠ pwmOffset w)
include hm hdir hpwm

/-- SETSPEED_COMPLETE writes no byte but the direction and the PWM of its wheel (R78). -/
theorem read_completed_of_ne (s' : Int) (p : Byte) :
    Memory.read (completed w s' p s).regmap a = Memory.read s.regmap a := by
  rw [read_completed hm, if_neg hdir, if_neg hpwm]

/-- The beginning of a hold writes no other byte (R76). -/
theorem read_settleBegin_of_ne (ms : Nat) : Memory.read (settleBegin w ms s).regmap a = Memory.read s.regmap a := by
  rw [read_settleBegin hm, if_neg hdir, if_neg hpwm]

end

/-- The PWM of R78 for a request other than a stop, as the number that R78 writes. -/
theorem initialPwm_of_entry {cfg : Cfg} {w : Wheel} {s' : Int} {e p : Byte} (hs : s' ≠ 0)
    (he : cfg.initTable[s'.natAbs]? = some e)
    (hp : (p.toNat : Int) = clamp ((e.toNat : Int) + cfg.calibrationOffset.get w) 0 255) :
    initialPwm cfg w s' = some p := by
  simp only [initialPwm, if_neg hs, he, ← hp, Int.toNat_natCast, BitVec.ofNat_toNat, BitVec.setWidth_eq]

/-- Settles O29: the PWM it names is the initial one, so the step completes, and `completed` says the rest. -/
theorem setspeedCompleteSetsTheWheel : Obligations.SetspeedCompleteSetsTheWheel := by
  intro s w s' p hm hp
  have hsome : initialPwm s.cfg w s' = some p := by
    rcases hp with ⟨rfl, rfl⟩ | ⟨hs, e, he, hp⟩
    · exact initialPwm_zero _ _
    · exact initialPwm_of_entry hs he hp
  exact ⟨completed w s' p s, setspeedComplete_of_some hsome, completed_drive _ _ _ _, completed_pendSet _ _ _ _,
    by simp [read_completed hm], by simp [read_completed hm], fun a hd hb => read_completed_of_ne hm hd hb _ _,
    rfl, rfl, rfl, rfl, rfl, rfl, rfl, rfl⟩

/-- Settles O30: the sign test sends the request to `settleBegin`. -/
theorem settlePathForcesPwmZero : Obligations.SettlePathForcesPwmZero := by
  intro s w ms hm hphase hactive hvalid hleft hmoving hsgn
  have henabled := enabledMainStep_eq_setspeedBegin.mpr ⟨hphase, hactive, hvalid, hleft⟩
  have hbegin : setspeedBegin w ms s = .next (settleBegin w ms s) :=
    setspeedBegin_eq_next.mpr (.inl ⟨settleNeeded_eq_true.mpr ⟨hsgn, hmoving⟩, rfl⟩)
  exact ⟨settleBegin w ms s, (mainStep_of_setspeedBegin henabled ms).trans hbegin, settleBegin_drive _ _ _,
    settleBegin_settle _ _ _, by simp [read_settleBegin hm], by simp [read_settleBegin hm],
    fun a hd hb => read_settleBegin_of_ne hm hd hb ms, rfl, rfl, rfl, rfl, hphase, rfl, rfl, rfl⟩

/-! ## No request is rejected -/

/-- A legal configuration has an initial PWM for every clamped request (R6, R36). -/
theorem initialPwm_of_legal {cfg : Cfg} (h : cfg.legal = true) (w : Wheel) (v : Int) :
    ∃ p, initialPwm cfg w (clampRequest cfg v) = some p := by
  obtain ⟨-, htables, -⟩ := cfg.legal_iff.mp h
  obtain ⟨hinit, -⟩ := cfg.tablesLegal_iff.mp htables
  have hle := natAbs_clampRequest_le cfg v
  unfold Cfg.maxSpeed at hle
  exact initialPwm_isSome (by omega)

section
variable {s : State} (hlegal : s.cfg.legal = true)
include hlegal

theorem setspeedBegin_of_legal (w : Wheel) (ms : Nat) : ∃ t, setspeedBegin w ms s = .next t := by
  simp only [setspeedBegin_eq_next]
  cases settleNeeded (clampRequest s.cfg (s.pendSet.get w).s) (s.drive.get w).speed with
  | true => exact ⟨_, .inl ⟨rfl, rfl⟩⟩
  | false =>
    obtain ⟨p, hp⟩ := initialPwm_of_legal hlegal w (s.pendSet.get w).s
    exact ⟨_, .inr ⟨rfl, p, hp, rfl⟩⟩

theorem settleWait_of_legal (ms : Nat) : ∃ t, settleWait ms s = .next t := by
  simp only [settleWait_eq_next]
  cases settleElapsed s.cfg (inMs s.cfg ms) s.settle.t0 with
  | false => exact ⟨_, .inl ⟨rfl, rfl⟩⟩
  | true =>
    obtain ⟨p, hp⟩ := initialPwm_of_legal hlegal s.settle.w (s.pendSet.get s.settle.w).s
    exact ⟨_, .inr ⟨rfl, p, hp, rfl⟩⟩

end

section
variable {s : State} {w : Wheel} (hphase : s.mlPhase = .dispatch) (hvalid : (s.pendSet.get w).valid = true)
include hphase hvalid

/-- While a request is latched, DISPATCH has a hold or a request to serve (R110). -/
theorem enabledMainStep_of_latched :
    enabledMainStep s = .settleWait ∨ ∃ v, enabledMainStep s = .setspeedBegin v := by
  cases he : enabledMainStep s with
  | drain => cases (enabledMainStep_eq_drain.mp he).symm.trans hphase
  | settleWait => exact .inl rfl
  | setspeedBegin v => exact .inr ⟨v, rfl⟩
  | dispatchDone =>
    obtain ⟨-, -, hleft, hright⟩ := enabledMainStep_eq_dispatchDone.mp he
    cases w
    · cases hleft.symm.trans hvalid
    · cases hright.symm.trans hvalid
  | loop v => exact absurd ((enabledMainStep_eq_loop.mp he).symm.trans hphase) (loopPhase_ne_dispatch v)

/-- A latched request stays latched as it is, or is carried out with the clamped speed (R74). -/
theorem request_kept_or_carried_out {ms : Nat} {t : State} (h : mainStep ms s = .next t) :
    t.pendSet.get w = s.pendSet.get w ∨
      (t.pendSet.get w).valid = false ∧ (t.drive.get w).speed = clampRequest s.cfg (s.pendSet.get w).s := by
  rcases enabledMainStep_of_latched hphase hvalid with he | ⟨v, he⟩
  · rw [mainStep_of_settleWait he] at h
    by_cases hw : w = s.settle.w
    · subst hw
      rcases settleWait_eq_next.mp h with ⟨_, rfl⟩ | ⟨_, p, _, rfl⟩
      · exact .inl rfl
      · exact .inr (by simp)
    · exact .inl (SameWheel.settleWait hw h).pend
  · rw [mainStep_of_setspeedBegin he] at h
    by_cases hw : w = v
    · subst hw
      rcases setspeedBegin_eq_next.mp h with ⟨_, rfl⟩ | ⟨_, p, _, rfl⟩
      · exact .inl rfl
      · exact .inr (by simp)
    · exact .inl (SameWheel.setspeedBegin hw h).pend

end

/-- A request in a direction whose bound is 0 is clamped to a stop (R74). -/
theorem clampRequest_of_zero_bound {cfg : Cfg} {v : Int}
    (h : cfg.maxForward = 0 ∧ 0 < v ∨ cfg.maxReverse = 0 ∧ v < 0) : clampRequest cfg v = 0 := by
  unfold clampRequest clamp
  split_ifs <;> omega

/-- Settles O32: a latched request is kept or carried out, and both steps that carry one out find their table entry. -/
theorem storedSpeedIsTheClampedRequest : Obligations.StoredSpeedIsTheClampedRequest := by
  intro s w ms hphase hvalid
  constructor
  · intro t h hdone
    have hspeed : (t.drive.get w).speed = clampRequest s.cfg (s.pendSet.get w).s := by
      rcases request_kept_or_carried_out hphase hvalid h with hkept | ⟨-, hspeed⟩
      · rw [hkept, hvalid] at hdone
        cases hdone
      · exact hspeed
    obtain ⟨hlow, hhigh⟩ := clampRequest_bounds s.cfg (s.pendSet.get w).s
    rw [hspeed]
    exact ⟨rfl, hlow, hhigh, fun hb hv => clampRequest_of_zero_bound (.inl ⟨hb, hv⟩),
      fun hb hv => clampRequest_of_zero_bound (.inr ⟨hb, hv⟩)⟩
  · intro _ hlegal
    have hnext : ∃ t, mainStep ms s = .next t := by
      rcases enabledMainStep_of_latched hphase hvalid with he | ⟨v, he⟩
      · rw [mainStep_of_settleWait he]
        exact settleWait_of_legal hlegal ms
      · rw [mainStep_of_setspeedBegin he]
        exact setspeedBegin_of_legal hlegal v ms
    obtain ⟨t, ht⟩ := hnext
    exact ⟨t, ht, request_kept_or_carried_out hphase hvalid ht⟩

/-! ## The per-wheel state machine -/

/-- The sign test of R75 in the terms of R72: the rows that take the settle path. -/
theorem settleNeeded_iff_dirOf {s' speed : Int} : settleNeeded s' speed = true ↔
    dirOf speed = .forward ∧ s' ≤ 0 ∨ dirOf speed = .reverse ∧ 0 ≤ s' := by
  rw [settleNeeded_eq_true, dirOf_eq_forward, dirOf_eq_reverse]
  unfold sgn
  split_ifs <;> omega

/-- The rows that take the direct path (R72). -/
theorem direct_iff_dirOf {s' speed : Int} : settleNeeded s' speed = false ↔
    dirOf speed = .stopped ∨ dirOf speed = .forward ∧ 0 < s' ∨ dirOf speed = .reverse ∧ s' < 0 := by
  rw [← Bool.not_eq_true, settleNeeded_iff_dirOf]
  cases dirOf speed <;> simp

/-- Settles O33: by the invariant the direction is that of the speed, so the sign test decides between the rows. -/
theorem stateMachineTakesThePathOfItsTable : Obligations.StateMachineTakesThePathOfItsTable := by
  intro s w ms hinv hlegal henabled s'
  obtain ⟨-, hactive, hvalid, -⟩ := enabledMainStep_eq_setspeedBegin.mp henabled
  obtain ⟨t, ht⟩ := setspeedBegin_of_legal hlegal w ms
  refine ⟨t, (mainStep_of_setspeedBegin henabled ms).trans ht, ?_⟩
  rw [(hinv.wheel w).dir, ← direct_iff_dirOf, ← settleNeeded_iff_dirOf]
  rcases setspeedBegin_eq_next.mp ht with ⟨hneeded, rfl⟩ | ⟨hdirect, p, hp, rfl⟩
  · refine ⟨fun hdirect => absurd (hneeded.symm.trans hdirect) nofun, fun _ => ?_⟩
    simp [hvalid, (hinv.wheel w).dir]
  · refine ⟨fun _ => ?_, fun hneeded => absurd (hdirect.symm.trans hneeded) nofun⟩
    have hstop : s' = 0 → p = 0 := fun h0 => by
      rw [show clampRequest s.cfg (s.pendSet.get w).s = 0 from h0, initialPwm_zero] at hp
      exact (Option.some.inj hp).symm
    simpa [hactive] using ⟨rfl, hstop⟩

end Sys2Proof.Machine
end

section
/-! PROOF. LOOP and the telemetry refresh: when a turn of LOOP passes by, what an adjustment cycle trims, and which bytes of
the register buffer it and the refreshes write. -/

namespace Sys2Proof.Machine

/-! ## The turns of LOOP that change nothing -/

theorem Drive.loopGuard_eq_true {d : Drive} {now : Nat} : d.loopGuard now = true ↔ d.speed ≠ 0 ∧ d.next < now := by
  rw [Drive.loopGuard, Bool.and_eq_true, decide_eq_true_iff, decide_eq_true_iff]

theorem Drive.loopGuard_eq_false {d : Drive} {now : Nat} : d.loopGuard now = false ↔ d.speed = 0 ∨ now ≤ d.next := by
  rw [← Bool.not_eq_true, Drive.loopGuard_eq_true, not_and_or, not_not, not_lt]

/-- The average that LOOP takes is that of the ring (R65, R80). -/
theorem ringAverage_eq_avg (w : Wheel) (s : State) : ringAverage (s.sampler.get w).buf = (avg w s).1 :=
  (avg_fst w s).symm

/-- A turn of the main loop in LOOP(w) is LOOP followed by the advance of the phase (R111, R112). -/
theorem perform_of_loop {s u : State} {w : Wheel} {ms : Nat} (he : enabledMainStep s = .loop w)
    (hl : loop w ms s = .next u) : perform (.mainLoop ms) s = .next (u.setPhase (phaseAfterLoop w)) :=
  (mainStep_of_loop he ms).trans (loopStep_eq_next.mpr ⟨u, hl, rfl⟩)

/-- Settles O36: with a false guard LOOP does not even take the average, so its mask does not matter. -/
theorem loopWithFalseGuardOnlyAdvances : Obligations.LoopWithFalseGuardOnlyAdvances := by
  intro s w ms he hguard
  have hfalse : (s.drive.get w).loopGuard (inMs s.cfg ms) = false := Drive.loopGuard_eq_false.mpr hguard
  exact perform_of_loop he (if_neg (Bool.eq_false_iff.mp hfalse))

/-- Settles O37: the average 0 sends LOOP past the cycle, and AVG leaves an unmasked wheel as it was. -/
theorem loopSkipsWithoutData : Obligations.LoopSkipsWithoutData := by
  intro s w ms he hu _ _ hzero
  exact perform_of_loop he ((loop_eq_next hu).mpr (.inl ⟨.inr ((ringAverage_eq_avg w s).trans hzero), rfl⟩))

/-! ## The bytes that a refresh writes -/

section
variable {s : State} (hm : Memory.wf s.regmap = true) (w : Wheel)
include hm

theorem read_refreshDp_dirOffset :
    Memory.read (refreshDp w s).regmap (dirOffset w) = dirByte s.cfg.dirCode (s.drive.get w).dir := by
  simp [read_refreshDp hm]

theorem read_refreshDp_pwmOffset : Memory.read (refreshDp w s).regmap (pwmOffset w) = (s.drive.get w).pwm := by
  simp [read_refreshDp hm]

/-- REFRESH_DP leaves the tickRate words and the other wheel's group (R83). -/
theorem read_refreshDp_of_ne {a : Nat} (hdir : a ≠ dirOffset w) (hpwm : a ≠ pwmOffset w) :
    Memory.read (refreshDp w s).regmap a = Memory.read s.regmap a := by
  rw [read_refreshDp hm, if_neg hdir, if_neg hpwm]

variable (m : Nat)

theorem read_refreshAll_dirOffset :
    Memory.read (refreshAll w m s).regmap (dirOffset w) = dirByte s.cfg.dirCode (s.drive.get w).dir := by
  simp [read_refreshAll hm, rateOffset, add_assoc]

theorem read_refreshAll_pwmOffset : Memory.read (refreshAll w m s).regmap (pwmOffset w) = (s.drive.get w).pwm := by
  simp [read_refreshAll hm, rateOffset, pwmOffset]

/-- The byte of the tickRate word at the lower offset (R38, R83). -/
theorem read_refreshAll_rateOffset : Memory.read (refreshAll w m s).regmap (rateOffset w) =
    if s.cfg.regLittleEndian then BitVec.ofNat 8 (sat16 m) else BitVec.ofNat 8 (sat16 m / 256) := by
  rw [read_refreshAll hm, if_pos rfl]

/-- The byte of the tickRate word at the higher offset (R38, R83). -/
theorem read_refreshAll_rateOffset_succ : Memory.read (refreshAll w m s).regmap (rateOffset w + 1) =
    if s.cfg.regLittleEndian then BitVec.ofNat 8 (sat16 m / 256) else BitVec.ofNat 8 (sat16 m) := by
  rw [read_refreshAll hm, if_neg (Nat.succ_ne_self _), if_pos rfl]

/-- REFRESH_ALL leaves every byte outside its wheel's group (R23, R83). -/
theorem read_refreshAll_outside {a : Nat} (ha : a < dirOffset w ∨ dirOffset w + 4 ≤ a) :
    Memory.read (refreshAll w m s).regmap a = Memory.read s.regmap a := by
  rw [read_refreshAll hm, rateOffset, pwmOffset, if_neg (by omega), if_neg (by omega), if_neg (by omega),
    if_neg (by omega)]

end

/-- The group of a wheel as R23 numbers it. -/
theorem dirOffset_eq (w : Wheel) : 4 * (if w = .left then 0 else 1) = dirOffset w := by
  cases w <;> rfl

/-- Saturation read from below (R11). -/
theorem sat16_eq (m : Nat) : sat16 m = if m ≤ 65535 then m else 65535 := by
  unfold sat16
  split_ifs <;> omega

/-- The low byte of a word needs no reduction of its own (R37). -/
theorem ofNat_mod_256 (n : Nat) : BitVec.ofNat 8 (n % 256) = BitVec.ofNat 8 n :=
  BitVec.eq_of_toNat_eq (by simp)

/-- Settles O39, byte by byte. -/
theorem refreshWritesTheWheelsGroup : Obligations.RefreshWritesTheWheelsGroup := by
  intro s w m hm
  simp only [dirOffset_eq, ← sat16_eq, ofNat_mod_256]
  refine ⟨read_refreshAll_rateOffset hm w m, read_refreshAll_rateOffset_succ hm w m, ?_,
    fun a => read_refreshDp_of_ne hm w⟩
  rw [List.forall_mem_cons, List.forall_mem_singleton]
  constructor
  · have houtside : ∀ a, (a < dirOffset w ∨ dirOffset w + 4 ≤ a) →
        Memory.read (refreshDp w s).regmap a = Memory.read s.regmap a := fun a ha =>
      read_refreshDp_of_ne hm w (by omega) (by unfold pwmOffset; omega)
    exact ⟨read_refreshDp_dirOffset hm w, read_refreshDp_pwmOffset hm w, houtside, wf_refreshDp hm w, rfl⟩
  · exact ⟨read_refreshAll_dirOffset hm w m, read_refreshAll_pwmOffset hm w m,
      fun a => read_refreshAll_outside hm w m, wf_refreshAll hm w m, rfl⟩

/-! ## The adjustment cycle -/

/-- Settles O38: the cycle is `adjust`, which trims and then refreshes the whole group. -/
theorem adjustmentCycleTrimsByOne : Obligations.AdjustmentCycleTrimsByOne := by
  intro s w ms target hm he hu hmoving hdue hdata htarget
  have hcycle : loop w ms s = .next (adjust w (inMs s.cfg ms) (avg w s).1 target s) := by
    rw [loop_eq_next hu, ringAverage_eq_avg]
    exact .inr ⟨Drive.loopGuard_eq_true.mpr ⟨hmoving, hdue⟩, hdata, target, htarget, rfl⟩
  refine ⟨_, perform_of_loop he hcycle, ?_⟩
  generalize (avg w s).1 = m
  simp only [State.setPhase_drive, State.setPhase_regmap, adjust_drive, PerWheel.get_set_same]
  refine ⟨fun h => trimPwm_below h _, fun h => trimPwm_above h _, fun h => h ▸ trimPwm_self m _, rfl, trivial,
    ?_, ?_, ?_, fun a => read_refreshAll_outside (s := s.setDrive w _) hm w m, rfl, rfl, rfl, rfl, rfl, rfl, rfl, rfl, rfl⟩
  · exact (read_refreshAll_dirOffset (s := s.setDrive w _) hm w m).trans (by simp)
  · exact (read_refreshAll_pwmOffset (s := s.setDrive w _) hm w m).trans (by simp)
  · rw [rateBytes_eq, adjust, read_refreshAll_rateOffset (by exact hm), read_refreshAll_rateOffset_succ (by exact hm)]
    rfl

/-! ## Where the tickRate words change -/

/-- Whatever the mask was, LOOP leaves its wheel and the register buffer, or it is an adjustment cycle (R79, R80). -/
theorem loop_keeps_or_adjusts {w : Wheel} {ms : Nat} {s t : State} (h : loop w ms s = .next t) :
    (t.drive = s.drive ∧ t.regmap = s.regmap) ∨
    ((s.drive.get w).loopGuard (inMs s.cfg ms) = true ∧ (avg w s).1 ≠ 0 ∧
      ∃ x target, t = adjust w (inMs s.cfg ms) (avg w s).1 target (s.setSampler w x)) := by
  unfold loop loopBody at h
  cases hguard : (s.drive.get w).loopGuard (inMs s.cfg ms) with
  | false =>
    rw [hguard] at h
    cases h
    exact .inl ⟨rfl, rfl⟩
  | true =>
    rw [hguard, avg_eq] at h
    rw [avg_eq]
    dsimp only at h ⊢
    by_cases hzero : ringAverage (s.sampler.get w).buf = 0
    · rw [if_pos rfl, if_pos hzero] at h
      cases h
      exact .inl ⟨rfl, rfl⟩
    · rw [if_pos rfl, if_neg hzero] at h
      split at h
      · next target _ =>
        cases h
        exact .inr ⟨rfl, hzero, _, target, rfl⟩
      · cases h

/-- The tickRate words of both wheels lie apart from every direction and PWM byte (R23). -/
theorem rate_apart {w : Wheel} {a : Nat} (ha : a = rateOffset w ∨ a = rateOffset w + 1) (v : Wheel) :
    a ≠ dirOffset v ∧ a ≠ pwmOffset v := by
  rcases ha with rfl | rfl <;> cases w <;> cases v <;> decide

/-- A main-loop step that changes a byte of a tickRate word is an adjustment cycle of its wheel (R83). -/
theorem adjusts_of_rate_change {w : Wheel} {a : Nat} (ha : a = rateOffset w ∨ a = rateOffset w + 1) {ms : Nat}
    {s t : State} (hm : Memory.wf s.regmap = true) (h : mainStep ms s = .next t)
    (hne : Memory.read t.regmap a ≠ Memory.read s.regmap a) :
    enabledMainStep s = .loop w ∧ (s.drive.get w).loopGuard (inMs s.cfg ms) = true ∧ (avg w s).1 ≠ 0 := by
  have hcompleted : ∀ {u : State} {v : Wheel} {s' : Int} {p : Byte}, u.regmap = s.regmap →
      Memory.read (completed v s' p u).regmap a = Memory.read s.regmap a := fun {u v s' p} hu => by
    rw [read_completed_of_ne (hu ▸ hm) (rate_apart ha v).1 (rate_apart ha v).2, hu]
  rcases mainStep_cases h with ⟨_, rfl⟩ | ⟨_, hw⟩ | ⟨v, _, hb⟩ | ⟨_, rfl⟩ | ⟨v, u, he, hl, rfl⟩
  · exact absurd (by rw [drain_regmap]) hne
  · rcases settleWait_eq_next.mp hw with ⟨_, rfl⟩ | ⟨_, p, _, rfl⟩
    · exact absurd rfl hne
    · exact absurd (hcompleted rfl) hne
  · rcases setspeedBegin_eq_next.mp hb with ⟨_, rfl⟩ | ⟨_, p, _, rfl⟩
    · exact absurd (read_settleBegin_of_ne hm (rate_apart ha v).1 (rate_apart ha v).2 ms) hne
    · exact absurd (hcompleted rfl) hne
  · exact absurd rfl hne
  · by_cases hv : w = v
    · subst hv
      rcases loop_keeps_or_adjusts hl with ⟨_, hregmap⟩ | ⟨hguard, hdata, _⟩
      · exact absurd (by rw [State.setPhase_regmap, hregmap]) hne
      · exact ⟨he, hguard, hdata⟩
    · have hgroup : dirOffset w ≤ a ∧ a < dirOffset w + 4 := by unfold rateOffset at ha; omega
      exact absurd ((SameWheel.loop hv hl).group a hgroup) hne

/-- Settles O40: of all acts but RESET only a main-loop step writes the register buffer. -/
theorem tickRateWordChangesOnlyInACycle : Obligations.TickRateWordChangesOnlyInACycle := by
  intro s t e w hinv hreset h hchange
  rcases agent_cases e with rfl | ⟨ms, rfl⟩ | he
  · exact absurd rfl hreset
  · refine ⟨ms, rfl, ?_⟩
    rcases hchange with hlow | hhigh
    · exact adjusts_of_rate_change (.inl rfl) hinv.regmap h hlow
    · exact adjusts_of_rate_change (.inr rfl) hinv.regmap h hhigh
  · obtain ⟨_, _, _, rfl⟩ := handler_frame he h
    exact hchange.elim (absurd rfl) (absurd rfl)

end Sys2Proof.Machine
end

section
/-! PROOF. The outputs: in which steps they change and to what, and the pins that show them. -/

namespace Sys2Proof.Machine

/-- A main-loop step that changes a wheel's registers is the SETSPEED_BEGIN of that wheel, the SETTLE_WAIT that ends its hold
or an adjustment cycle of that wheel (R85). -/
theorem drive_change_cases {ms : Nat} {s t : State} {w : Wheel} (h : mainStep ms s = .next t)
    (hne : t.drive.get w ≠ s.drive.get w) :
    enabledMainStep s = .setspeedBegin w ∨
    (enabledMainStep s = .settleWait ∧ s.settle.w = w ∧ t.settle.active = false) ∨
    (enabledMainStep s = .loop w ∧ (s.drive.get w).loopGuard (inMs s.cfg ms) = true ∧ (avg w s).1 ≠ 0) := by
  rcases mainStep_cases h with ⟨_, rfl⟩ | ⟨he, hw⟩ | ⟨v, he, hb⟩ | ⟨_, rfl⟩ | ⟨v, u, he, hl, rfl⟩
  · exact absurd (by rw [drain_drive]) hne
  · have hown : s.settle.w = w := by
      by_contra hv
      exact hne (SameWheel.settleWait (Ne.symm hv) hw).drive
    rcases settleWait_eq_next.mp hw with ⟨_, rfl⟩ | ⟨_, p, _, rfl⟩
    · exact absurd rfl hne
    · exact .inr (.inl ⟨he, hown, rfl⟩)
  · have hown : v = w := by
      by_contra hv
      exact hne (SameWheel.setspeedBegin (Ne.symm hv) hb).drive
    exact .inl (hown ▸ he)
  · exact absurd rfl hne
  · have hown : v = w := by
      by_contra hv
      exact hne (SameWheel.loop (Ne.symm hv) hl).drive
    subst hown
    rcases loop_keeps_or_adjusts hl with ⟨hdrive, _⟩ | ⟨hguard, hdata, _⟩
    · exact absurd (by rw [State.setPhase_drive, hdrive]) hne
    · exact .inr (.inr ⟨he, hguard, hdata⟩)

/-- The first part of a settling request: PWM 0, the direction as it was (R76, R85). -/
theorem outputs_of_begun_hold {w : Wheel} {ms : Nat} {s t : State} (hinactive : s.settle.active = false)
    (h : setspeedBegin w ms s = .next t) (hactive : t.settle.active = true) : pwmOut t w = 0 ∧ dirOut t w = dirOut s w := by
  rcases setspeedBegin_eq_next.mp h with ⟨_, rfl⟩ | ⟨_, p, _, rfl⟩
  · simp [pwmOut, dirOut]
  · cases hinactive.symm.trans hactive

/-- A completed request shows its initial PWM and its direction (R78, R85). -/
theorem outputs_of_completed {s' : Int} {w : Wheel} {p : Byte} (s : State) :
    pwmOut (completed w s' p s) w = p ∧ dirOut (completed w s' p s) w = driverDir (dirOf s') := by
  simp [pwmOut, dirOut]

/-- The PWM moves by at most one in an adjustment cycle (R80, R81). -/
theorem trimPwm_within_one (m target : Nat) (p : Byte) :
    (trimPwm m target p).toNat ≤ p.toNat + 1 ∧ p.toNat ≤ (trimPwm m target p).toNat + 1 := by
  have hp := p.isLt
  rcases lt_trichotomy m target with h | rfl | h
  · rw [trimPwm_below h]
    omega
  · rw [trimPwm_self]
    omega
  · rw [trimPwm_above h]
    omega

/-- LOOP keeps the direction and moves the PWM by at most one (R80, R85). -/
theorem outputs_of_loop {w : Wheel} {ms : Nat} {s t : State} (h : loop w ms s = .next t) :
    dirOut t w = dirOut s w ∧ (pwmOut t w).toNat ≤ (pwmOut s w).toNat + 1 ∧
      (pwmOut s w).toNat ≤ (pwmOut t w).toNat + 1 := by
  rcases loop_keeps_or_adjusts h with ⟨hdrive, _⟩ | ⟨_, _, x, target, rfl⟩
  · simp [pwmOut, dirOut, hdrive]
  · simpa [pwmOut, dirOut] using trimPwm_within_one (avg w s).1 target (s.drive.get w).pwm

/-- Settles O48: the outputs are wires from the wheel's registers, so they change where those do. -/
theorem outputsChangeOnlyInTheirSteps : Obligations.OutputsChangeOnlyInTheirSteps := by
  intro s t e w h
  refine ⟨fun hchange => ?_, ?_, ?_, ?_, ?_⟩
  · have hne : t.drive.get w ≠ s.drive.get w := fun heq => by simp [pwmOut, dirOut, heq] at hchange
    rcases agent_cases e with rfl | ⟨ms, rfl⟩ | he
    · exact .inl rfl
    · exact .inr ⟨ms, rfl, drive_change_cases h hne⟩
    · obtain ⟨_, _, _, rfl⟩ := handler_frame he h
      exact absurd rfl hne
  · rintro rfl
    cases h
    cases w <;> exact ⟨rfl, rfl⟩
  · rintro ms rfl he hactive
    obtain ⟨-, hinactive, -⟩ := enabledMainStep_eq_setspeedBegin.mp he
    exact outputs_of_begun_hold hinactive ((mainStep_of_setspeedBegin he ms).symm.trans h) hactive
  · rintro ms rfl (he | ⟨he, rfl⟩) hinactive
    · rcases setspeedBegin_eq_next.mp ((mainStep_of_setspeedBegin he ms).symm.trans h) with ⟨_, rfl⟩ | ⟨_, p, hp, rfl⟩
      · cases hinactive
      · obtain ⟨hpwm, hdir⟩ := outputs_of_completed s
        exact ⟨by rw [hpwm, hp], hdir⟩
    · obtain ⟨-, hactive⟩ := enabledMainStep_eq_settleWait.mp he
      rcases settleWait_eq_next.mp ((mainStep_of_settleWait he ms).symm.trans h) with ⟨_, rfl⟩ | ⟨_, p, hp, rfl⟩
      · cases hactive.symm.trans hinactive
      · obtain ⟨hpwm, hdir⟩ := outputs_of_completed (s.setSettle { s.settle with active := false })
        exact ⟨by rw [hpwm, hp], hdir⟩
  · rintro ms rfl he
    obtain ⟨u, hl, rfl⟩ := loopStep_eq_next.mp ((mainStep_of_loop he ms).symm.trans h)
    exact (outputs_of_loop hl :)

/-- Settles O49, by the topology and the direction of the wheel. -/
theorem pinsFollowTheTruthTables : Obligations.PinsFollowTheTruthTables := by
  intro s w
  unfold pins pwmOut dirOut
  cases htop : s.cfg.topology.get w <;> cases hdir : (s.drive.get w).dir <;> simp [driverDir, dirPin, phasePins]

end Sys2Proof.Machine
end

section
/-! PROOF. The command interface: what one command and one transaction leave in the mailbox, how the next transaction
reaches the machine, what DRAIN takes, and what a host read shows (R91 to R107). -/

namespace Sys2Proof.Machine

/-! ## One command -/

/-- Settles O9: each command is its MBOX_WRITE. -/
theorem commandsReplaceTheMailbox : Obligations.CommandsReplaceTheMailbox :=
  fun _ _ => ⟨rfl, rfl, rfl, rfl, rfl, rfl, rfl, rfl, rfl⟩

/-- Settles O10: a command completes by one write of the mailbox. -/
theorem commandFrame : Obligations.CommandFrame := by
  intro i s
  obtain ⟨m, hm⟩ := exec_is_mbox_write i
  exact ⟨s.setMbox m, hm s, rfl, rfl, rfl, rfl, fun _ => rfl, rfl, rfl, rfl, rfl, rfl⟩

/-! ## One transaction -/

/-- A command leaves the same state whatever stood in the mailbox before it (R102). -/
theorem exec_setMbox (i : Instr) (m : Mailbox) (s : State) : exec i (s.setMbox m) = exec i s := by
  obtain ⟨m', hm'⟩ := exec_is_mbox_write i
  rw [hm', hm', State.setMbox_setMbox]

/-- Of a run of commands the last one alone is left (R105). -/
theorem runCommands_concat (before : List Instr) (i : Instr) (s : State) :
    runCommands (before ++ [i]) s = exec i s := by
  obtain ⟨m, hm⟩ := runCommands_is_mbox_write before s
  obtain ⟨m', hm'⟩ := exec_is_mbox_write i
  rw [runCommands_append, hm, andThen_next, runCommands, exec_setMbox, hm', andThen_next, runCommands]

/-- Settles O14: the last command replaces whatever those before it wrote. -/
theorem lastCommandOfATransactionWins : Obligations.LastCommandOfATransactionWins := by
  refine fun s bytes => ⟨busWrite_of_parse_nil, fun before i h => ?_⟩
  rw [perform, busWrite, h, runCommands_concat]

/-! ## The next transaction in store -/

/-- The word of one instruction has no byte beyond it: its length is that of its opcode (R53). -/
theorem nothing_after_wordBytes {c : CmdCode} {nbits w : Nat} {i : Instr} {rest : List Byte}
    (h : decode c (wordBytes c nbits w) = .command i rest) : rest = [] := by
  simp only [wordBytes] at h
  generalize BitVec.ofNat 8 (w % 2 ^ nbits) = b at h
  cases hb : c.find b with
  | none =>
    rw [CmdCode.cmdlen, hb, if_neg (by decide), decode_of_unrecognised hb] at h
    cases h
  | some m =>
    cases hm : m.hasPayload with
    | false =>
      have hlen : c.cmdlen b ≠ 2 := by simp [CmdCode.cmdlen, hb, hm]
      rw [if_neg hlen, decode_of_stop hb hm] at h
      cases h
      rfl
    | true =>
      have hlen : c.cmdlen b = 2 := by simp [CmdCode.cmdlen, hb, hm]
      rw [if_pos hlen, decode_of_payload hb hm] at h
      cases h
      rfl

/-- An instruction word of the table decodes to its one command. -/
theorem decode_of_decodeTableWord {nbits w : Nat} {i : Instr} (h : decodeTableWord nbits w = some i) :
    decode CmdCode.listingOrder (wordBytes CmdCode.listingOrder nbits w) = .command i [] := by
  unfold decodeTableWord at h
  split at h
  · next j rest hd =>
    cases h
    rwa [nothing_after_wordBytes hd] at hd
  all_goals cases h

/-- The step takes the transaction from the store and runs the command it decodes to (R91). -/
theorem step_of_decoded {s : State} {bytes : List Byte} {rest : List Event} {i : Instr}
    (hin : s.inputs = .busWrite bytes :: rest) (hd : decode s.cfg.cmdCode bytes = .command i []) :
    step s = exec i { s with inputs := rest } := by
  have hparse : parse s.cfg.cmdCode bytes = [i] := by
    rw [parse_eq_decode, hd]
    exact congrArg (i :: ·) (parse_nil _)
  rw [step, hin]
  exact busWrite_of_parse_singleton hparse

/-- Settles O11: the encoding of a command and the word of an instruction decode to one command each. -/
theorem stepRunsTheDecodedCommand : Obligations.StepRunsTheDecodedCommand := by
  refine ⟨fun s bytes rest i => step_of_decoded, fun s i rest hinj hin => step_of_decoded hin ?_,
    fun s nbits w i hcode hword => ?_⟩
  · simpa using decode_encode hinj i []
  · refine step_of_decoded (s := s.withFetchWord nbits w) rfl ?_
    rw [State.withFetchWord, hcode]
    exact decode_of_decodeTableWord hword

/-! ## DRAIN -/

/-- In its phase the turn of the main loop is DRAIN (R103). -/
theorem perform_mainLoop_of_drain {s : State} (h : s.mlPhase = .drain) (ms : Nat) :
    perform (.mainLoop ms) s = .next (drain s) :=
  mainStep_of_drain (enabledMainStep_eq_drain.mpr h) ms

/-- Settles O15, field by field: the latches are those of the wheels that the selector addresses. -/
theorem drainIsAnAtomicSwap : Obligations.DrainIsAnAtomicSwap := by
  intro s ms hphase
  rw [perform_mainLoop_of_drain hphase]
  refine ⟨fun hempty => ?_, fun hfull => ?_, rfl, rfl, rfl, fun hinv => ?_⟩
  · rw [drain, hempty]
    rfl
  · rw [drain, if_pos hfull]
    unfold latchFrom
    cases s.mbox.sel <;> rfl
  · have hnot : s.mlPhase ≠ .dispatch := by rw [hphase]; nofun
    exact ⟨(hinv.wheel .left).not_latched hnot, (hinv.wheel .right).not_latched hnot⟩

/-! ## BUS_READ -/

/-- Settles O41: the snapshot is taken from offset 0 on. -/
theorem busReadReturnsTheWholeBuffer : Obligations.BusReadReturnsTheWholeBuffer :=
  fun _ => rfl

/-- Settles O42: the invariant has both groups of the buffer show their wheels. -/
theorem snapshotShowsBothWheels : Obligations.SnapshotShowsBothWheels := by
  refine fun s hinv => ⟨busRead s, Memory.readBytes s.regmap 0 regLen, rfl, rfl, Memory.length_readBytes _ _ _,
    fun w => ?_⟩
  rw [← (hinv.wheel w).dirByte, ← (hinv.wheel w).pwmByte]
  cases w <;> exact ⟨rfl, rfl⟩

end Sys2Proof.Machine
end

section
/-! PROOF. A command from its write to the end of its dispatch: DRAIN latches its requests, and DISPATCH serves the left
wheel and then the right one, each directly or through a hold (R92 to R100, R104, R108, R110). -/

namespace Sys2Proof.Machine

/-! ## Runs of acts -/

theorem performAll_append_of_next {es : List Event} : ∀ {s t : State} (fs : List Event),
    performAll es s = .next t → performAll (es ++ fs) s = performAll fs t := by
  induction es with
  | nil =>
    intro s t fs h
    cases h
    rfl
  | cons e es ih =>
    intro s t fs h
    obtain ⟨u, hu, ht⟩ := andThen_eq_next.mp h
    rw [List.cons_append, performAll, hu, andThen_next, ih fs ht]

theorem performAll_cons_of_next {e : Event} {es : List Event} {s t u : State} (h : perform e s = .next t)
    (ht : performAll es t = .next u) : performAll (e :: es) s = .next u :=
  andThen_eq_next.mpr ⟨t, h, ht⟩

theorem performAll_singleton {e : Event} {s t : State} (h : perform e s = .next t) : performAll [e] s = .next t :=
  performAll_cons_of_next h rfl

/-- A run of acts keeps the invariant. -/
theorem MachineInv.performAll {es : List Event} : ∀ {s t : State}, MachineInv s → performAll es s = .next t →
    MachineInv t := by
  induction es with
  | nil =>
    intro s t hinv h
    cases h
    exact hinv
  | cons e es ih =>
    intro s t hinv h
    obtain ⟨u, hu, ht⟩ := andThen_eq_next.mp h
    exact ih (hinv.perform hu) ht

/-! ## Decode and drain -/

/-- The latch `l` after the drain of a command that leaves the request `o` to its wheel. -/
def Latch.drained (l : Latch) : Option Int → Latch
  | some v => { valid := true, s := v }
  | none => l

/-- `t` is `s` after command `i` has been written and drained (the "Decode" and "Drain" lines of R92 to R100). -/
structure Drained (i : Instr) (s t : State) : Prop where
  cfg : t.cfg = s.cfg
  drive : t.drive = s.drive
  regmap : t.regmap = s.regmap
  settle : t.settle = s.settle
  phase : t.mlPhase = .dispatch
  mbox : t.mbox.valid = false
  pend : ∀ w, t.pendSet.get w = (s.pendSet.get w).drained (requestOf i w)

/-- The column "Drain" of R92 to R100, by the selector and the action in the command's name. -/
theorem requestOf_withPayload (m : Mnemonic) (p : Byte) (w : Wheel) :
    requestOf (m.withPayload p) w =
      if (mnemonicSel m).addresses w then some (speedOf (mnemonicAct m) p) else none := by
  cases m <;> cases w <;> rfl

/-- A written command is drained by the next turn of the main loop in phase DRAIN (R91, R103). -/
theorem performAll_write_drain (i : Instr) {s : State} (hinj : s.cfg.cmdCode.injective = true)
    (hphase : s.mlPhase = .drain) (ms : Nat) :
    ∃ t, performAll [.busWrite (encode s.cfg.cmdCode i), .mainLoop ms] s = .next t ∧ Drained i s t := by
  obtain ⟨m, p, rfl⟩ := i.exists_withPayload
  have hwrite : perform (.busWrite (encode s.cfg.cmdCode (m.withPayload p))) s = _ :=
    (busWrite_of_parse_singleton (parse_encode hinj _)).trans (exec_withPayload m p s)
  have hdrain := mainStep_mboxWrite hphase (mnemonicSel m) (mnemonicAct m) (if m.hasPayload then p else 0) ms
  have hrun := performAll_cons_of_next hwrite (performAll_singleton (e := .mainLoop ms) hdrain)
  refine ⟨_, hrun, drain_cfg _, drain_drive _, drain_regmap _, drain_settle _, drain_mlPhase _, by rw [drain_mbox],
    fun w => ?_⟩
  rw [drain_mboxWrite_pendSet_get, requestOf_withPayload, speedOf_storedPayload]
  split_ifs <;> rfl

/-- Settles O16: a written command is drained to its requests. -/
theorem everyCommandLatchesItsRequests : Obligations.EveryCommandLatchesItsRequests := by
  intro i s ms hphase hinj
  obtain ⟨t, ht, hd⟩ := performAll_write_drain i hinj hphase ms
  refine ⟨t, ht, hd.phase, hd.mbox, hd.drive, fun w => ?_⟩
  rw [hd.pend]
  cases requestOf i w <;> rfl

/-! ## The turn of a wheel -/

/-- The latch holds the request `o`, or none (R26). -/
def Latch.Holds (l : Latch) : Option Int → Prop
  | some v => l = { valid := true, s := v }
  | none => l.valid = false

/-- DISPATCH has no hold and comes to wheel `w`, whose latch holds `o`: the left wheel before the right one (R110). -/
structure Turn (w : Wheel) (o : Option Int) (s : State) : Prop where
  inv : MachineInv s
  phase : s.mlPhase = .dispatch
  idle : s.settle.active = false
  latch : (s.pendSet.get w).Holds o
  order : w = .right → (s.pendSet.get .left).valid = false

/-- A wheel with a request has its SETSPEED_BEGIN in its turn (R110). -/
theorem Turn.enabled {w : Wheel} {v : Int} {s : State} (h : Turn w (some v) s) :
    enabledMainStep s = .setspeedBegin w := by
  obtain ⟨-, hphase, hidle, hlatch : s.pendSet.get w = { valid := true, s := v }, horder⟩ := h
  exact enabledMainStep_eq_setspeedBegin.mpr ⟨hphase, hidle, by rw [hlatch], horder⟩

theorem Turn.request {w : Wheel} {v : Int} {s : State} (h : Turn w (some v) s) : (s.pendSet.get w).s = v :=
  congrArg Latch.s h.latch

section
variable {i : Instr} {s t : State} (h : Drained i s t) (hinv : MachineInv s) (hphase : s.mlPhase = .drain)
include h hinv hphase

/-- The invariant has nothing latched before the drain, so after it the latches hold what the command asks for. -/
theorem Drained.latch (w : Wheel) : (t.pendSet.get w).Holds (requestOf i w) := by
  rw [h.pend]
  cases requestOf i w with
  | none => exact (hinv.wheel w).not_latched (by rw [hphase]; nofun)
  | some v => exact rfl

/-- After the drain it is the turn of the left wheel. -/
theorem Drained.turn (htinv : MachineInv t) : Turn .left (requestOf i .left) t where
  inv := htinv
  phase := h.phase
  idle := h.settle ▸ hinv.settle.inactive (by rw [hphase]; nofun)
  latch := h.latch hinv hphase .left
  order := nofun

end

/-! ## The service of one wheel -/

/-- What carrying out the request `o` of wheel `w` makes of its registers (R74, R78). -/
def Drive.Executed (cfg : Cfg) (w : Wheel) (d d' : Drive) : Option Int → Prop
  | some v => d'.speed = clampRequest cfg v ∧ d'.dir = dirOf (clampRequest cfg v) ∧
      some d'.pwm = initialPwm cfg w (clampRequest cfg v) ∧ d'.next = d.next
  | none => d' = d

/-- `t` is `s` after DISPATCH has served the request `o` of wheel `w`. -/
structure Served (w : Wheel) (o : Option Int) (s t : State) : Prop where
  cfg : t.cfg = s.cfg
  phase : t.mlPhase = s.mlPhase
  idle : t.settle.active = false
  unlatched : (t.pendSet.get w).valid = false
  drive : (s.drive.get w).Executed s.cfg w (t.drive.get w) o
  rate : ∀ a, a = rateOffset w ∨ a = rateOffset w + 1 → Memory.read t.regmap a = Memory.read s.regmap a
  other : ∀ u, u ≠ w → SameWheel u s t

/-- A wheel without a request is served by no step. -/
theorem Served.none {w : Wheel} {s : State} (hidle : s.settle.active = false)
    (hunlatched : (s.pendSet.get w).valid = false) : Served w none s s :=
  ⟨rfl, rfl, hidle, hunlatched, rfl, fun _ _ => rfl, fun u _ => .refl u s⟩

/-- The tickRate word of a wheel is neither its direction nor its PWM byte (R23). -/
theorem rate_ne_dirPwm {w : Wheel} {a : Nat} (ha : a = rateOffset w ∨ a = rateOffset w + 1) :
    a ≠ dirOffset w ∧ a ≠ pwmOffset w := by
  unfold rateOffset at ha
  unfold pwmOffset
  omega

section
variable {s : State} {w : Wheel} {v : Int} {p : Byte} (hm : Memory.wf s.regmap = true)
  (hp : initialPwm s.cfg w (clampRequest s.cfg v) = some p)
include hm hp

/-- SETSPEED_COMPLETE serves its wheel (R78). -/
theorem Served.completed (hidle : s.settle.active = false) :
    Served w (some v) s (Machine.completed w (clampRequest s.cfg v) p s) where
  cfg := rfl
  phase := rfl
  idle := hidle
  unlatched := by simp
  drive := by simp [Drive.Executed, hp]
  rate a ha := read_completed_of_ne hm (rate_ne_dirPwm ha).1 (rate_ne_dirPwm ha).2 _ p
  other u hu := .completed hu s _ p

/-- So does a hold with the SETSPEED_COMPLETE at its end (R76 to R78). -/
theorem Served.held (ms : Nat) {h : Settle} (hidle : h.active = false) :
    Served w (some v) s (Machine.completed w (clampRequest s.cfg v) p ((settleBegin w ms s).setSettle h)) := by
  have hend := Served.completed (s := (settleBegin w ms s).setSettle h) (wf_settleBegin hm w ms) hp hidle
  obtain ⟨-, -, -, hunlatched, hdrive, hrate, hother⟩ := hend
  refine ⟨rfl, rfl, hidle, hunlatched, by simpa [Drive.Executed] using hdrive, fun a ha => ?_, fun u hu => ?_⟩
  · exact (hrate a ha).trans (read_settleBegin_of_ne hm (rate_ne_dirPwm ha).1 (rate_ne_dirPwm ha).2 ms)
  · obtain ⟨hd, hl, hx, hg⟩ := SameWheel.settleBegin hu s ms
    have hbegun : SameWheel u s ((settleBegin w ms s).setSettle h) := ⟨hd, hl, hx, hg⟩
    exact hbegun.trans (hother u hu)

end

/-- The request `v` of wheel `w`, whose registers are `d`, is carried out without a hold and finds its initial PWM. -/
def IsDirect (cfg : Cfg) (w : Wheel) (d : Drive) (v : Int) : Prop :=
  settleNeeded (clampRequest cfg v) d.speed = false ∧ ∃ p, initialPwm cfg w (clampRequest cfg v) = some p

section
variable {s : State} {w : Wheel}

/-- A request that needs no hold is served by one step (R75). -/
theorem Turn.direct {v : Int} (h : Turn w (some v) s) (hdirect : IsDirect s.cfg w (s.drive.get w) v) (ms : Nat) :
    ∃ t, perform (.mainLoop ms) s = .next t ∧ Served w (some v) s t := by
  obtain ⟨hnot, p, hp⟩ := hdirect
  obtain rfl := h.request
  have hbegin := (setspeedBegin_eq_next (ms := ms)).mpr (.inr ⟨hnot, p, hp, rfl⟩)
  exact ⟨_, (mainStep_of_setspeedBegin h.enabled ms).trans hbegin, .completed h.inv.regmap hp h.idle⟩

/-- In its turn a wheel without a request takes no step, and one with a request that needs no hold takes one. -/
theorem Turn.direct_or_none {o : Option Int} (h : Turn w o s)
    (hdirect : ∀ v, o = some v → IsDirect s.cfg w (s.drive.get w) v) (ms : Nat) :
    ∃ t, performAll (o.toList.map fun _ => .mainLoop ms) s = .next t ∧ Served w o s t := by
  cases o with
  | none => exact ⟨s, rfl, .none h.idle h.latch⟩
  | some v =>
    obtain ⟨t, ht, hserved⟩ := h.direct (hdirect v rfl) ms
    exact ⟨t, performAll_singleton ht, hserved⟩

/-- A request that needs a hold begins it in one step, and is served by a SETTLE_WAIT after the delay (R76, R77). -/
theorem Turn.hold {v : Int} {p : Byte} (h : Turn w (some v) s)
    (hneeded : settleNeeded (clampRequest s.cfg v) (s.drive.get w).speed = true)
    (hp : initialPwm s.cfg w (clampRequest s.cfg v) = some p) {ms ms' : Nat}
    (helapsed : settleElapsed s.cfg (inMs s.cfg ms') (inMs s.cfg ms) = true) :
    perform (.mainLoop ms) s = .next (settleBegin w ms s) ∧
      ∃ t, perform (.mainLoop ms') (settleBegin w ms s) = .next t ∧ Served w (some v) s t := by
  obtain rfl := h.request
  have hbegin := (setspeedBegin_eq_next (ms := ms)).mpr (.inl ⟨hneeded, rfl⟩)
  have hwaiting : enabledMainStep (settleBegin w ms s) = .settleWait :=
    enabledMainStep_eq_settleWait.mpr ⟨h.phase, rfl⟩
  have hend := (settleWait_eq_next (s := settleBegin w ms s)).mpr (.inr ⟨helapsed, p, hp, rfl⟩)
  exact ⟨(mainStep_of_setspeedBegin h.enabled ms).trans hbegin, _, (mainStep_of_settleWait hwaiting ms').trans hend,
    .held h.inv.regmap hp ms (h := { active := false, w := w, t0 := inMs s.cfg ms }) rfl⟩

end

/-! ## The dispatch of both wheels -/

/-- The left wheel served, then the right one: DISPATCH is done with both (R110). -/
structure Dispatched (request : Wheel → Option Int) (s t : State) : Prop where
  cfg : t.cfg = s.cfg
  done : enabledMainStep t = .dispatchDone
  drive : ∀ w, (s.drive.get w).Executed s.cfg w (t.drive.get w) (request w)
  rate : ∀ w a, a = rateOffset w ∨ a = rateOffset w + 1 → Memory.read t.regmap a = Memory.read s.regmap a

/-- The tickRate word of a wheel stands in its group (R23). -/
theorem rate_mem_group {w : Wheel} {a : Nat} (ha : a = rateOffset w ∨ a = rateOffset w + 1) :
    dirOffset w ≤ a ∧ a < dirOffset w + 4 := by
  unfold rateOffset at ha
  omega

/-- When the left wheel has been served it is the turn of the right one, whose latch is as it was (R13, R110). -/
theorem Served.turn {o o' : Option Int} {s t : State} (h : Served .left o s t) (hphase : s.mlPhase = .dispatch)
    (hlatch : (s.pendSet.get .right).Holds o') (hinv : MachineInv t) : Turn .right o' t where
  inv := hinv
  phase := h.phase.trans hphase
  idle := h.idle
  latch := (h.other .right nofun).pend ▸ hlatch
  order _ := h.unlatched

theorem Dispatched.of_served {request : Wheel → Option Int} {s t u : State} (hphase : s.mlPhase = .dispatch)
    (hl : Served .left (request .left) s t) (hr : Served .right (request .right) t u) : Dispatched request s u := by
  have hleft := hr.other .left nofun
  have hright := hl.other .right nofun
  refine ⟨hr.cfg.trans hl.cfg, ?_, fun w => ?_, fun w a ha => ?_⟩
  · exact enabledMainStep_eq_dispatchDone.mpr
      ⟨(hr.phase.trans hl.phase).trans hphase, hr.idle, hleft.pend ▸ hl.unlatched, hr.unlatched⟩
  · cases w with
    | left => exact hleft.drive ▸ hl.drive
    | right => exact hright.drive ▸ hl.cfg ▸ hr.drive
  · cases w with
    | left => exact (hleft.group a (rate_mem_group ha)).trans (hl.rate a ha)
    | right => exact (hr.rate a ha).trans (hright.group a (rate_mem_group ha))

/-- The wheels of a command are the left one, if it has a request, and then the right one (R104, R110). -/
theorem map_wheelsOf {α : Type} (i : Instr) (x : α) :
    (wheelsOf i).map (fun _ => x) =
      (requestOf i .left).toList.map (fun _ => x) ++ (requestOf i .right).toList.map (fun _ => x) := by
  unfold wheelsOf
  cases hl : requestOf i .left <;> cases hr : requestOf i .right <;> simp [hl, hr]

/-- A command that no addressed wheel has to settle for: write, drain, and one step for each addressed wheel. -/
theorem performAll_direct_command {i : Instr} {s : State} (hinv : MachineInv s) (hinj : s.cfg.cmdCode.injective = true)
    (hphase : s.mlPhase = .drain) (hdirect : ∀ w v, requestOf i w = some v → IsDirect s.cfg w (s.drive.get w) v)
    (ms : Nat) :
    ∃ t, performAll (.busWrite (encode s.cfg.cmdCode i) :: .mainLoop ms :: (wheelsOf i).map (fun _ => .mainLoop ms)) s
        = .next t ∧ MachineInv t ∧ t.cfg = s.cfg ∧ enabledMainStep t = .dispatchDone ∧
      ∀ w, (s.drive.get w).Executed s.cfg w (t.drive.get w) (requestOf i w) := by
  obtain ⟨t, ht, hd⟩ := performAll_write_drain i hinj hphase ms
  have htinv := hinv.performAll ht
  rw [← hd.cfg, ← hd.drive] at hdirect
  obtain ⟨u, hu, hl⟩ := (hd.turn hinv hphase htinv).direct_or_none (hdirect .left) ms
  have huinv := htinv.performAll hu
  have hright := hl.other .right nofun
  obtain ⟨x, hx, hr⟩ := (hl.turn hd.phase (hd.latch hinv hphase .right) huinv).direct_or_none
    (hright.drive ▸ hl.cfg ▸ hdirect .right) ms
  have hdone := Dispatched.of_served hd.phase hl hr
  refine ⟨x, ?_, huinv.performAll hx, hdone.cfg.trans hd.cfg, hdone.done, hd.cfg ▸ hd.drive ▸ hdone.drive⟩
  exact (performAll_append_of_next _ ht).trans (by rw [map_wheelsOf, performAll_append_of_next _ hu, hx])

/-- Settles O17: the sign test lets each request through, and a legal configuration has an initial PWM for it. -/
theorem directCommandSetsItsWheels : Obligations.DirectCommandSetsItsWheels := by
  intro i s ms hinv hlegal hphase hdirect
  obtain ⟨-, -, -, -, -, hinj, -⟩ := s.cfg.legal_iff.mp hlegal
  have hdirect' : ∀ w v, requestOf i w = some v → IsDirect s.cfg w (s.drive.get w) v := fun w v hv =>
    ⟨settleNeeded_eq_false.mpr (hdirect w v hv).symm, initialPwm_of_legal hlegal w v⟩
  obtain ⟨t, ht, htinv, hcfg, hdone, hdrive⟩ := performAll_direct_command hinv hinj hphase hdirect' ms
  refine ⟨t, ht, hdone, fun w => ⟨hcfg ▸ (htinv.wheel w).dirByte, (htinv.wheel w).pwmByte, ?_⟩⟩
  have hw := hdrive w
  cases ho : requestOf i w <;> rw [ho] at hw <;> exact hw

/-- A request within the bounds is not clamped (R74). -/
theorem clampRequest_of_le {cfg : Cfg} {n : Nat} (h : n ≤ cfg.maxForward) : clampRequest cfg n = n :=
  clamp_of_mem (by omega) (by omega)

/-- Settles O18: a forward request to a wheel that is not in reverse is direct, and 120 is its initial PWM. -/
theorem forwardLeft120ShowsInRegisterMap : Obligations.ForwardLeft120ShowsInRegisterMap := by
  intro s e ms hinv hinj hphase hdir hbound he hpwm
  have hclamp : clampRequest s.cfg 120 = 120 := clampRequest_of_le hbound
  have hinit : initialPwm s.cfg .left (clampRequest s.cfg 120) = some 120 := by
    rw [hclamp]
    exact initialPwm_of_entry (by decide) he hpwm.symm
  have hnot : settleNeeded (clampRequest s.cfg 120) (s.drive.get .left).speed = false := by
    rw [(hinv.wheel .left).dir, ne_eq, dirOf_eq_reverse] at hdir
    rw [direct_iff_dirOf, dirOf_eq_stopped, dirOf_eq_forward, hclamp]
    omega
  have hdirect : ∀ w v, requestOf (.fwdLeft 120) w = some v → IsDirect s.cfg w (s.drive.get w) v := by
    rintro (_ | _) v hv
    · cases hv
      exact ⟨hnot, _, hinit⟩
    · cases hv
  obtain ⟨t, ht, htinv, hcfg, hdone, hdrive⟩ := performAll_direct_command hinv hinj hphase hdirect ms
  have hleft : (s.drive.get .left).Executed s.cfg .left (t.drive.get .left) (some 120) := hdrive .left
  obtain ⟨-, hforward, hpwm120, -⟩ := hleft
  rw [hclamp] at hforward
  refine ⟨t, ht, (htinv.wheel .left).dirByte.trans ?_, (htinv.wheel .left).pwmByte.trans ?_, hdone⟩
  · rw [hforward, hcfg]
    rfl
  · exact Option.some.inj (hpwm120.trans hinit)

/-! ## STOP_BOTH -/

/-- The clamp leaves a stop a stop (R74). -/
theorem clampRequest_zero (cfg : Cfg) : clampRequest cfg 0 = 0 := clampRequest_of_le (Nat.zero_le _)

/-- A stop holds a moving wheel (R72, R75). -/
theorem settleNeeded_zero {speed : Int} (h : speed ≠ 0) : settleNeeded 0 speed = true := by
  rw [settleNeeded_iff_dirOf, dirOf_eq_forward, dirOf_eq_reverse]
  omega

/-- A stop of a moving wheel: the hold, and its end after the delay (R92). -/
theorem Turn.stop {s : State} {w : Wheel} (h : Turn w (some 0) s) (hmoving : (s.drive.get w).speed ≠ 0) {ms ms' : Nat}
    (helapsed : settleElapsed s.cfg (inMs s.cfg ms') (inMs s.cfg ms) = true) :
    perform (.mainLoop ms) s = .next (settleBegin w ms s) ∧
      ∃ t, perform (.mainLoop ms') (settleBegin w ms s) = .next t ∧ Served w (some 0) s t := by
  have hzero := clampRequest_zero s.cfg
  exact h.hold (hzero.symm ▸ settleNeeded_zero hmoving) (p := 0) (by rw [hzero, initialPwm_zero]) helapsed

/-- A wheel that has carried out a stop (the end state of R92). -/
theorem Drive.Executed.stop {cfg : Cfg} {w : Wheel} {d d' : Drive} (h : d.Executed cfg w d' (some 0)) :
    d'.speed = 0 ∧ d'.dir = .stopped ∧ d'.pwm = 0 := by
  obtain ⟨hspeed, hdir, hpwm, -⟩ := h
  rw [clampRequest_zero] at hspeed hdir hpwm
  exact ⟨hspeed, hdir, Option.some.inj hpwm⟩

/-- Settles O19: the left wheel is served through its hold, which leaves the right one as it is, and then the right one
through its own. -/
theorem stopBothStopsTwoMovingWheelsInTwoHolds : Obligations.StopBothStopsTwoMovingWheelsInTwoHolds := by
  intro s m₀ m₁ m₂ m₃ m₄ hinv hinj hphase hmoving helapsed helapsed'
  obtain ⟨t, ht, hd⟩ := performAll_write_drain .stopBoth hinj hphase m₀
  have htinv := hinv.performAll ht
  rw [← hd.cfg] at helapsed helapsed'
  rw [← hd.drive] at hmoving
  obtain ⟨hbegin, u, hu, hl⟩ := Turn.stop (hd.turn hinv hphase htinv) (hmoving .left) helapsed
  have huinv := (htinv.perform hbegin).perform hu
  have hright := hl.other .right nofun
  rw [← hl.cfg] at helapsed'
  obtain ⟨hbegin', x, hx, hr⟩ := Turn.stop (hl.turn hd.phase (hd.latch hinv hphase .right) huinv)
    (hright.drive ▸ hmoving .right) helapsed'
  have hxinv := (huinv.perform hbegin').perform hx
  have hdone := Dispatched.of_served (request := requestOf .stopBoth) hd.phase hl hr
  refine ⟨settleBegin .left m₁ t, x, ?_, ?_, ?_, ?_, ?_, hdone.done, fun w => ?_⟩
  · exact (performAll_append_of_next [.mainLoop m₁] ht).trans (performAll_singleton hbegin)
  · rw [settleBegin_settle, hd.cfg]
  · simp
  · simp [hd.drive]
  · exact performAll_cons_of_next hu (performAll_cons_of_next hbegin' (performAll_singleton hx))
  · obtain ⟨hspeed, hdir, hpwm⟩ := (hdone.drive w).stop
    rw [← hd.regmap, ← hd.cfg, ← hdone.cfg]
    exact ⟨hspeed, hdir, hpwm, (hxinv.wheel w).dirByte.trans (by rw [hdir]; rfl), (hxinv.wheel w).pwmByte.trans hpwm,
      hdone.rate w _ (.inl rfl), hdone.rate w _ (.inr rfl)⟩

end Sys2Proof.Machine
end

section
/-! PROOF. The order of the main loop: which step has its turn in each phase, the phase that each step leads to, and the act
that a step takes. -/

namespace Sys2Proof.Machine

/-! ## The round of phases -/

/-- The phase in which each main-loop step ends (R109 to R112). -/
def MainStep.phaseAfter : MainStep → Phase
  | .drain | .settleWait | .setspeedBegin _ => .dispatch
  | .dispatchDone => .loopL
  | .loop w => phaseAfterLoop w

/-- The step that had its turn fixes the next phase, whatever it did to a hold, a wheel or a latch. -/
theorem mainStep_mlPhase {ms : Nat} {s t : State} (h : mainStep ms s = .next t) :
    t.mlPhase = (enabledMainStep s).phaseAfter := by
  rcases mainStep_cases h with ⟨he, rfl⟩ | ⟨he, hw⟩ | ⟨w, he, hb⟩ | ⟨he, rfl⟩ | ⟨w, u, he, _, rfl⟩
  · simp [he, MainStep.phaseAfter]
  · obtain ⟨hphase, -⟩ := enabledMainStep_eq_settleWait.mp he
    rw [he]
    rcases settleWait_eq_next.mp hw with ⟨_, rfl⟩ | ⟨_, p, _, rfl⟩ <;> exact hphase
  · obtain ⟨hphase, -⟩ := enabledMainStep_eq_setspeedBegin.mp he
    rw [he]
    rcases setspeedBegin_eq_next.mp hb with ⟨_, rfl⟩ | ⟨_, p, _, rfl⟩ <;> exact hphase
  · simp [he, MainStep.phaseAfter, dispatchDone]
  · simp [he, MainStep.phaseAfter]

/-- Settles O44: in DISPATCH each of the steps that can be enabled says by its own condition whether something is held or
latched; in every other phase one step alone is enabled. -/
theorem phaseGoesRoundInOrder : Obligations.PhaseGoesRoundInOrder := by
  intro s t ms h
  have hnext : t.mlPhase = (enabledMainStep s).phaseAfter := mainStep_mlPhase h
  refine ⟨fun hp => ?_, fun hp => ?_, fun hp => ?_, fun hp => ?_⟩
  · rwa [enabledMainStep_eq_drain.mpr hp] at hnext
  · cases he : enabledMainStep s <;> rw [he] at hnext
    case drain => cases (enabledMainStep_eq_drain.mp he).symm.trans hp
    case settleWait => exact .inr ⟨hnext, .inl (enabledMainStep_eq_settleWait.mp he).2⟩
    case setspeedBegin w =>
      obtain ⟨-, -, hvalid, -⟩ := enabledMainStep_eq_setspeedBegin.mp he
      cases w with
      | left => exact .inr ⟨hnext, .inr (.inl hvalid)⟩
      | right => exact .inr ⟨hnext, .inr (.inr hvalid)⟩
    case dispatchDone => exact .inl ⟨hnext, (enabledMainStep_eq_dispatchDone.mp he).2⟩
    case loop w => exact absurd ((enabledMainStep_eq_loop.mp he).symm.trans hp) (loopPhase_ne_dispatch w)
  · rwa [enabledMainStep_eq_loop (w := .left).mpr hp] at hnext
  · rwa [enabledMainStep_eq_loop (w := .right).mpr hp] at hnext

/-! ## The step that has its turn -/

/-- Settles O43, by the condition of each main-loop step. -/
theorem mainLoopStepInEachPhase : Obligations.MainLoopStepInEachPhase := fun _ =>
  ⟨enabledMainStep_eq_drain.mpr,
    fun hphase hactive => enabledMainStep_eq_settleWait.mpr ⟨hphase, hactive⟩,
    fun hphase hidle hleft => enabledMainStep_eq_setspeedBegin.mpr ⟨hphase, hidle, hleft, nofun⟩,
    fun hphase hidle hleft hright => enabledMainStep_eq_setspeedBegin.mpr ⟨hphase, hidle, hright, fun _ => hleft⟩,
    fun hphase hidle hleft hright => enabledMainStep_eq_dispatchDone.mpr ⟨hphase, hidle, hleft, hright⟩,
    enabledMainStep_eq_loop (w := .left).mpr,
    enabledMainStep_eq_loop (w := .right).mpr,
    mainStep_of_dispatchDone⟩

/-! ## The act that a step takes -/

/-- Settles O12, by what the environment has in store. -/
theorem stepTakesTheNextAct : Obligations.StepTakesTheNextAct := by
  refine fun s => ⟨fun e rest hstored => ?_, fun hempty => ?_⟩
  · simp only [step, hstored]
  · simp only [step, hempty]

end Sys2Proof.Machine
end

section
/-! PROOF. No step stops under a legal configuration (R36, R121): the one refusal of a step is a table without the entry
it needs, the invariant keeps every magnitude within the tables that R6 asks, and a handler has nothing to refuse
(R127). -/

namespace Sys2Proof.Machine

/-! ## The entries that the tables have -/

/-- Where SETSPEED_COMPLETE finds no initial PWM for a clamped request, a table is shorter than R6 asks (R36). -/
theorem tablesLegal_of_initialPwm_none {cfg : Cfg} {w : Wheel} {v : Int}
    (h : initialPwm cfg w (clampRequest cfg v) = none) : cfg.tablesLegal = false := by
  have hshort := length_le_of_initialPwm_none h
  have hindex := natAbs_clampRequest_le cfg v
  rw [Bool.eq_false_iff, ne_eq, Cfg.tablesLegal_iff]
  rintro ⟨hinit, -⟩
  unfold Cfg.maxSpeed at hindex
  omega

/-- Where an adjustment cycle finds no target for a speed within its bounds, a table is shorter than R6 asks (R36). -/
theorem tablesLegal_of_targetInterval_none {cfg : Cfg} {d : Drive} (hd : d.Inv cfg)
    (h : targetInterval cfg d.speed = none) : cfg.tablesLegal = false := by
  have hshort : cfg.targetTable.length ≤ d.speed.natAbs := List.getElem?_eq_none_iff.mp h
  have hlow := hd.speedLow
  have hhigh := hd.speedHigh
  rw [Bool.eq_false_iff, ne_eq, Cfg.tablesLegal_iff]
  rintro ⟨-, htarget⟩
  omega

/-! ## Why a step is refused -/

/-- `r` is the refusal of a table without an entry, and in a state that meets the invariant a table is shorter than R6
asks. -/
def RefusedByTable (s : State) (r : Refusal) : Prop :=
  r = .tableTooShort ∧ (MachineInv s → s.cfg.tablesLegal = false)

theorem setspeedComplete_refused {w : Wheel} {v : Int} {s : State} {r : Refusal}
    (h : setspeedComplete w (clampRequest s.cfg v) s = .refused r) : RefusedByTable s r := by
  obtain ⟨hnone, rfl⟩ := setspeedComplete_eq_refused.mp h
  exact ⟨rfl, fun _ => tablesLegal_of_initialPwm_none hnone⟩

/-- The hold's path of SETSPEED_BEGIN looks up no table; the direct path completes at once (R75). -/
theorem setspeedBegin_refused {w : Wheel} {ms : Nat} {s : State} {r : Refusal}
    (h : setspeedBegin w ms s = .refused r) : RefusedByTable s r := by
  unfold setspeedBegin at h
  split_ifs at h
  exact setspeedComplete_refused h

/-- SETTLE_WAIT looks up a table only where it ends the hold (R77). -/
theorem settleWait_refused {ms : Nat} {s : State} {r : Refusal} (h : settleWait ms s = .refused r) :
    RefusedByTable s r := by
  unfold settleWait at h
  split_ifs at h
  obtain ⟨hr, htables⟩ := setspeedComplete_refused (s := s.setSettle { s.settle with active := false }) h
  exact ⟨hr, fun hinv => htables hinv.endHold⟩

/-- LOOP looks up a table only in an adjustment cycle (R80). -/
theorem targetInterval_none_of_loop_refused {w : Wheel} {ms : Nat} {s : State} {r : Refusal}
    (h : loop w ms s = .refused r) : r = .tableTooShort ∧ targetInterval s.cfg (s.drive.get w).speed = none := by
  unfold loop loopBody at h
  rw [avg_eq] at h
  split_ifs at h
  dsimp only at h
  split_ifs at h
  split at h
  · cases h
  · next hnone =>
    cases h
    exact ⟨rfl, hnone⟩

theorem loopStep_refused {w : Wheel} {ms : Nat} {s : State} {r : Refusal} (h : loopStep w ms s = .refused r) :
    RefusedByTable s r := by
  rcases andThen_eq_refused.mp h with hl | ⟨_, _, hphase⟩
  · obtain ⟨hr, hnone⟩ := targetInterval_none_of_loop_refused hl
    refine ⟨hr, fun hinv => ?_⟩
    obtain ⟨-, hdrive, -⟩ := wheelInv_iff.mp (hinv.wheel w)
    exact tablesLegal_of_targetInterval_none hdrive hnone
  · cases hphase

theorem mainStep_refused {ms : Nat} {s : State} {r : Refusal} (h : mainStep ms s = .refused r) :
    RefusedByTable s r := by
  cases he : enabledMainStep s with
  | drain => cases (mainStep_of_drain he ms).symm.trans h
  | settleWait => exact settleWait_refused ((mainStep_of_settleWait he ms).symm.trans h)
  | setspeedBegin w => exact setspeedBegin_refused ((mainStep_of_setspeedBegin he ms).symm.trans h)
  | dispatchDone => cases (mainStep_of_dispatchDone he ms).symm.trans h
  | loop w => exact loopStep_refused ((mainStep_of_loop he ms).symm.trans h)

/-- Of the agents' acts only a turn of the main loop is ever refused: RESET and the handlers complete (R127, R139). -/
theorem perform_refused {e : Event} {s : State} {r : Refusal} (h : perform e s = .refused r) : RefusedByTable s r := by
  rcases agent_cases e with rfl | ⟨ms, rfl⟩ | he
  · cases h
  · exact mainStep_refused h
  · obtain ⟨_, _, _, hnext⟩ := perform_interrupt he s
    cases hnext.symm.trans h

/-- Settles O56: a step is one act, taken in a state that meets the invariant when `s` does. -/
theorem onlyAShortTableStopsAStep : Obligations.OnlyAShortTableStopsAStep := by
  intro s r h
  obtain ⟨e, inputs, drawn, hstep⟩ := step_is_perform s
  obtain ⟨hr, htables⟩ := perform_refused (hstep.symm.trans h)
  exact ⟨hr, fun hinv => htables (hinv.of_environment s.mbox inputs s.reads drawn)⟩

/-! ## Progress -/

/-- What a started machine is and stays: its state meets the invariant and its configuration is legal. -/
structure Sound (s : State) : Prop where
  inv : MachineInv s
  legal : s.cfg.legal = true

/-- A state that start-up gives is sound (R121, R141). -/
theorem Sound.of_startUp {cfg : Cfg} {s : State} (h : startUp cfg = .next s) : Sound s := by
  obtain ⟨hlegal, rfl⟩ := startUp_eq_next.mp h
  exact ⟨machineInv_resetWith cfg, hlegal⟩

/-- What the environment has in store is no part of soundness. -/
theorem Sound.of_environment {s : State} (h : Sound s) (inputs : List Event) (drawn : Nat) :
    Sound { s with inputs := inputs, drawn := drawn } :=
  ⟨h.inv.of_environment s.mbox inputs s.reads drawn, h.legal⟩

/-- From a sound state every act of every agent has a next state, which is sound again: there is no fault, and the one
refusal wants a table that a legal configuration does not have (R121). -/
theorem Sound.perform {s : State} (h : Sound s) (e : Event) : ∃ t, perform e s = .next t ∧ Sound t := by
  cases hp : Machine.perform e s with
  | next t => exact ⟨t, rfl, h.inv.perform hp, perform_cfg hp ▸ h.legal⟩
  | fault r => cases r
  | refused r =>
    obtain ⟨-, htables, -⟩ := s.cfg.legal_iff.mp h.legal
    exact absurd ((perform_refused hp).2 h.inv) (by simp [htables])

theorem Sound.step {s : State} (h : Sound s) : ∃ t, step s = .next t ∧ Sound t := by
  obtain ⟨e, inputs, drawn, hstep⟩ := step_is_perform s
  rw [hstep]
  exact (h.of_environment inputs drawn).perform e

/-- Settles O54: an act goes on from a sound state, and so does the step that takes it. -/
theorem legalMachineNeverStops : Obligations.LegalMachineNeverStops := by
  intro s hinv hlegal
  have hsound : Sound s := ⟨hinv, hlegal⟩
  exact ⟨hsound.step.imp fun _ ht => ht.1, fun e => (hsound.perform e).imp fun _ ht => ht.1⟩

/-- No list of acts stops a sound machine. -/
theorem Sound.performAll (es : List Event) : ∀ {s : State}, Sound s → ∃ t, performAll es s = .next t := by
  induction es with
  | nil => exact fun {s} _ => ⟨s, rfl⟩
  | cons e es ih =>
    intro s h
    obtain ⟨u, hu, husound⟩ := h.perform e
    obtain ⟨t, ht⟩ := ih husound
    exact ⟨t, performAll_cons_of_next hu ht⟩

/-- No number of steps stops a sound machine. -/
theorem Sound.run (k : Nat) : ∀ {s : State}, Sound s → ∃ t, core.run k s = .next t := by
  induction k with
  | zero => exact fun {s} _ => ⟨s, rfl⟩
  | succ k ih =>
    intro s h
    obtain ⟨u, hu, husound⟩ := h.step
    obtain ⟨t, ht⟩ := ih husound
    exact ⟨t, (run_succ_of_next (M := core) k hu).trans ht⟩

/-- The configuration of the machine after reset is legal by its type, so start-up accepts it (R141). -/
theorem startUp_reset : startUp State.reset.cfg = .next State.reset :=
  startUp_eq_next.mpr ⟨loaded_legal, rfl⟩

/-- Settles O55: start-up gives a sound state, whatever acts are then put in store. -/
theorem startedMachineNeverStops : Obligations.StartedMachineNeverStops := by
  refine ⟨startUp_reset, fun cfg s hstart es => ?_, fun k => (Sound.of_startUp startUp_reset).run k⟩
  have hsound := Sound.of_startUp hstart
  exact ⟨hsound.performAll es, fun k => (hsound.of_environment es s.drawn).run k⟩

/-! ## What a handler owns -/

/-- An edge or a tick writes its own wheel's sampler, a write transaction the mailbox, a read the output port
(R34, R127). -/
theorem handler_cases {e : Event} (he : e.isInterrupt = true) (s : State) :
    (∃ w x, (e = .edge w ∨ ∃ us, e = .tick w us) ∧ perform e s = .next (s.setSampler w x)) ∨
    (∃ bytes m, e = .busWrite bytes ∧ perform e s = .next (s.setMbox m)) ∨
    (e = .busRead ∧ perform e s = .next (busRead s)) := by
  cases e with
  | reset => cases he
  | mainLoop ms => cases he
  | edge w => exact .inl ⟨w, _, .inl rfl, rfl⟩
  | tick w us =>
    obtain ⟨x, hx⟩ := tick_is_sampler_write w us s
    exact .inl ⟨w, x, .inr ⟨us, rfl⟩, by rw [perform, hx]⟩
  | busWrite bytes =>
    obtain ⟨m, hm⟩ := busWrite_is_mbox_write bytes s
    exact .inr (.inl ⟨bytes, m, rfl, hm⟩)
  | busRead => exact .inr (.inr ⟨rfl, rfl⟩)

/-- An edge and a tick are of one wheel. -/
theorem wheel_eq_of_encoder_act {e : Event} {w v : Wheel} (hw : e = .edge w ∨ ∃ us, e = .tick w us)
    (hv : e = .edge v ∨ ∃ us, e = .tick v us) : v = w := by
  rcases hw with rfl | ⟨us, rfl⟩ <;> rcases hv with hv | ⟨_, hv⟩ <;> cases hv <;> rfl

/-- Settles O45, by the one record that each handler writes. -/
theorem handlersLeaveTheMainLoopAlone : Obligations.HandlersLeaveTheMainLoopAlone := by
  intro s e he
  rcases handler_cases he s with ⟨w, x, hw, hnext⟩ | ⟨bytes, m, rfl, hnext⟩ | ⟨rfl, hnext⟩
  · refine ⟨_, hnext, rfl, rfl, rfl, rfl, rfl, rfl, rfl, fun v hv => ⟨rfl, rfl, fun u hu => ?_⟩, ?_, ?_⟩
    · exact PerWheel.get_set_of_ne _ _ (wheel_eq_of_encoder_act hw hv ▸ hu)
    · rcases hw with rfl | ⟨us, rfl⟩ <;> nofun
    · rcases hw with rfl | ⟨us, rfl⟩ <;> nofun
  · exact ⟨_, hnext, rfl, rfl, rfl, rfl, rfl, rfl, rfl, nofun, fun _ _ => ⟨rfl, rfl⟩, nofun⟩
  · exact ⟨_, hnext, rfl, rfl, rfl, rfl, rfl, rfl, rfl, nofun, nofun, fun _ => ⟨rfl, rfl⟩⟩

end Sys2Proof.Machine
end

section
/-! PROOF. RESET: the record that each wheel gets, and the register buffer and the outputs that go with it. -/

namespace Sys2Proof.Machine

section
variable (s : State) (w : Wheel)

@[simp] theorem resetStep_sampler : (resetStep s).sampler.get w = Sampler.reset := by cases w <;> rfl

@[simp] theorem resetStep_drive : (resetStep s).drive.get w = Drive.reset := by cases w <;> rfl

@[simp] theorem resetStep_pendSet : (resetStep s).pendSet.get w = { valid := false, s := 0 } := by cases w <;> rfl

@[simp] theorem resetStep_regmap : (resetStep s).regmap = resetRegmap s.cfg := rfl

/-- After RESET the driver of each wheel sees PWM 0 and Brake (R32, R139). -/
theorem outputs_of_resetStep : pwmOut (resetStep s) w = 0 ∧ dirOut (resetStep s) w = .brake := by
  simp [pwmOut, dirOut, Drive.reset, driverDir]

end

/-- The ring of a sampler is all zero after reset (R32). -/
theorem Sampler.reset_buf (i : Fin 5) : Sampler.reset.buf[i] = 0 := by fin_cases i <;> rfl

/-- Every byte of the register buffer but the two direction bytes is 0x00 after reset (R24, R32). -/
theorem read_resetRegmap_of_ne {a : Nat} (cfg : Cfg) (hleft : a ≠ 0) (hright : a ≠ 4) :
    Memory.read (resetRegmap cfg) a = 0 := by
  rw [read_resetRegmap, if_neg hright, if_neg hleft]

/-- Settles O50: in whatever state, RESET gives each wheel the reset records and the buffer the reset bytes. -/
theorem resetSetsEveryElement : Obligations.ResetSetsEveryElement := by
  intro s
  refine ⟨resetStep s, rfl, rfl, fun w => ?_, fun a => read_resetRegmap_of_ne s.cfg, wf_resetRegmap s.cfg,
    rfl, rfl, rfl, rfl, rfl⟩
  have hdir : Memory.read (resetRegmap s.cfg) (dirOffset w) = s.cfg.dirCode.stopped := (shows_resetRegmap s.cfg w).dir
  obtain ⟨hpwmOut, hdirOut⟩ := outputs_of_resetStep s w
  rw [resetStep_sampler, resetStep_drive, resetStep_pendSet, resetStep_regmap]
  exact ⟨Sampler.reset_buf, rfl, rfl, rfl, rfl, rfl, rfl, rfl, rfl, rfl, hdir, hpwmOut, hdirOut⟩

end Sys2Proof.Machine
end
